-- ==== Sys2Proof/Word.lean ====
section
/-! DEFINITION. The two word types of the block's ports (10_state.md R26, 30_encoding.md R40, R41). -/

namespace Sys2Proof

/-- The command word `cmd[33:0]` of one tick: `rst` in bit 33, `conn` in bit 32, `vin` in bits 31:0
(30_encoding.md R40, R41). -/
abbrev Word := BitVec 34

/-- The raw control voltage on the port `vin`, as the 32 bits that arrive (10_state.md R26). -/
abbrev Volts := BitVec 32

end Sys2Proof
end

