-- ==== Sys2Proof/Syntax.lean ====
section
/-! DEFINITION. The commands of the block, one constructor per row of spec/opcode_table.json
(30_encoding.md R42 to R44). -/

namespace Sys2Proof

/-- One command. The ignored bits of RESET and HOLD are no part of the command: a model must not give them
a meaning (30_encoding.md R48). -/
inductive Instr where
  /-- RESET: return the block to its reset state (40_comparator_ops.md R64). -/
  | reset
  /-- STEP: feed one connected sample to the comparator (40_comparator_ops.md R62). -/
  | step (vin : Volts)
  /-- HOLD: a tick in which the port is disconnected (40_comparator_ops.md R63). -/
  | hold
  deriving DecidableEq, Repr

end Sys2Proof
end

