-- ==== Sys2Proof/Decode.lean ====
section
/-! DEFINITION. The decoder of a command word (30_encoding.md R41 to R45), its opcode table, and the encoder of a
command's canonical word (30_encoding.md R51). A command is not made of bytes: its 34 bits arrive in parallel, bit i on
wire i (20_memory.md R29). -/

namespace Sys2Proof

/-- `cmd[33]`, the port `rst` (30_encoding.md R41). -/
def rstBit (w : Word) : Bool := w.getLsbD 33

/-- `cmd[32]`, the port `conn` (30_encoding.md R41). -/
def connBit (w : Word) : Bool := w.getLsbD 32

/-- `cmd[31:0]`, the port `vin` (30_encoding.md R41). -/
def vinField (w : Word) : Volts := w.extractLsb' 0 32

/-- The command a word selects (30_encoding.md R45). `rst` has priority over `conn`. Every word selects one. -/
def decode (w : Word) : Instr :=
  if rstBit w then .reset
  else if connBit w then .step (vinField w)
  else .hold

/-- Why a number is no command word. No word of the port is refused (30_encoding.md R48). -/
inductive DecodeError where
  /-- The number needs more than the port's 34 wires. SAFE: such a number never reaches the block. -/
  | widerThanThePort
  deriving DecidableEq, Repr

/-- The 34-bit word a number stands for, bit 0 the least significant (00_scope.md R8). -/
def wordOfNat (n : Nat) : Except DecodeError Word :=
  if n < 2 ^ 34 then .ok (BitVec.ofNat 34 n) else .error .widerThanThePort

/-- The command a number stands for, refusing by name what does not fit the port. -/
def decodeNat (n : Nat) : Except DecodeError Instr :=
  match wordOfNat n with
  | .ok w => .ok (decode w)
  | .error e => .error e

/-- The command word of an instruction's low `nbits` bits `w`; bits above `nbits` are 0. None where it does not fit
the port. -/
def tableWord (nbits w : Nat) : Option Word :=
  match wordOfNat (w % 2 ^ nbits) with
  | .ok x => some x
  | .error _ => none

/-- The instruction the decoder reads from the bits `w` of an opcode-table row of `nbits` bits. -/
def decodeTableWord (nbits w : Nat) : Option Instr :=
  match tableWord nbits w with
  | some x => some (decode x)
  | none => none

/-- The word on the ports `rst`, `conn` and `vin`: `{rst, conn, vin}` (30_encoding.md R41). -/
def portWord (rst conn : Bool) (vin : Volts) : Word :=
  (BitVec.ofBool rst).setWidth 34 <<< 33 ||| (BitVec.ofBool conn).setWidth 34 <<< 32 ||| vin.setWidth 34

/-- The canonical word of a command, every ignored bit 0 (30_encoding.md R51). -/
def encode : Instr → Word
  | .reset => portWord true false 0#32
  | .step vin => portWord false true vin
  | .hold => portWord false false 0#32

/-- One row of the opcode map: a word belongs to it where it agrees with `matchBits` on the bits of `mask`. -/
structure OpcodeRow where
  mnemonic  : String
  matchBits : Word
  mask      : Word
  deriving DecidableEq, Repr

/-- The opcode map (30_encoding.md R42 to R44). -/
def opcodeTable : List OpcodeRow :=
  [ { mnemonic := "RESET", matchBits := 0x200000000#34, mask := 0x200000000#34 },
    { mnemonic := "STEP", matchBits := 0x100000000#34, mask := 0x300000000#34 },
    { mnemonic := "HOLD", matchBits := 0x000000000#34, mask := 0x300000000#34 } ]

/-- The word belongs to the row. -/
def rowSelects (r : OpcodeRow) (w : Word) : Bool := w &&& r.mask == r.matchBits

/-- The mnemonic of a command in spec/opcode_table.json. -/
def mnemonicOf : Instr → String
  | .reset => "RESET"
  | .step _ => "STEP"
  | .hold => "HOLD"

/-- Two words that differ at most in bits their command ignores (30_encoding.md R48): the same `rst`; unless that is 1,
the same `conn`; and, in a STEP, the same `vin`. -/
def sameCaredBits (a b : Word) : Bool :=
  rstBit a == rstBit b &&
    (rstBit a || (connBit a == connBit b && (!connBit a || vinField a == vinField b)))

end Sys2Proof
end

