-- ==== Sys2Proof/Config.lean ====
section
/-! DEFINITION. What an elaboration of the block fixes (00_scope.md R6), and the one free value of the model,
the power-on draw (10_state.md R25). -/

namespace Sys2Proof

/-- The number format `FMT` (00_scope.md R6): the widths of the exponent and fraction fields, under one sign bit.
DESIGN CHOICE, safe: which formats are allowed beside the default (log entry 3). -/
structure Format where
  expBits  : Nat
  fracBits : Nat
  deriving DecidableEq, Repr

/-- The default `FMT`, IEEE 754 binary32: exponent in bits 30:23, fraction in bits 22:0 (30_encoding.md R46). -/
def Format.binary32 : Format := { expBits := 8, fracBits := 23 }

/-- The parameters of an elaboration (00_scope.md R6). `SPAN` and `YSPAN` are computed from them
(40_comparator_ops.md R53), and `POWER_ON_STATE` is the free value `Config.powerOnDraw`. -/
structure Params where
  fmt             : Format   -- FMT
  vLo             : Volts    -- V_LO
  vHi             : Volts    -- V_HI
  yLo             : Volts    -- Y_LO
  yHi             : Volts    -- Y_HI
  tHi             : Volts    -- T_HI
  tLo             : Volts    -- T_LO
  threshInclusive : Bool     -- THRESH_INCLUSIVE
  resetValue      : Bool     -- RESET_VALUE
  deriving DecidableEq, Repr

/-- The default parameters: the column "bits of default" of 00_scope.md R6. -/
def Params.default : Params where
  fmt             := Format.binary32
  vLo             := 0x3DCCCCCD#32
  vHi             := 0x40000000#32
  yLo             := 0x00000000#32
  yHi             := 0x3F800000#32
  tHi             := 0x3F800000#32
  tLo             := 0x00000000#32
  threshInclusive := false
  resetValue      := false

/-- The defaults with `THRESH_INCLUSIVE` = true, the other setting of 95_test_vectors.md. -/
def Params.inclusive : Params := { Params.default with threshInclusive := true }

/-- FREE VALUE, DESIGN CHOICE, safe (log entry 4). `POWER_ON_STATE` is OPEN (00_scope.md R6, 10_state.md R25): the state the n-th power-on
of this machine draws. It has no body, so nothing can be proved of its value, and a statement holds for both. -/
opaque Config.powerOnDraw : Nat → Bool

end Sys2Proof
end

