-- ==== Sys2Proof/Machine/Float.lean ====
section
/-! DEFINITION. The floating-point primitives of 00_scope.md R9 on the values of a format `FMT`, and the decoding of
an operand word (30_encoding.md R46). IEEE status flags are discarded (00_scope.md R9), so no operation reports one.

Every finite value of a format is a whole number of its least subnormal, 2^(-149) for binary32. A finite value is
held as that whole number, so exact sums are integer sums, and rounding is one function of an exact fraction. -/

namespace Sys2Proof.Machine

/-- A value of a format. There is ONE NaN: a NaN's sign and payload have no effect (30_encoding.md R49). The sign of a
zero is kept, as `fadd(+0.0, -0.0) = +0.0` needs (40_comparator_ops.md R53). -/
inductive Fp where
  | nan
  | inf (neg : Bool)
  /-- The value `±mag`, counted in least subnormals of the format. -/
  | fin (neg : Bool) (mag : Nat)
  deriving DecidableEq, Repr

/-- How many powers of two the unit (the least subnormal) lies below 1: bias + fracBits - 1, for binary32
127 + 23 - 1 = 149 (30_encoding.md R46, "±0.fraction × 2^−126"). -/
def unitShift (f : Format) : Nat := (2 ^ (f.expBits - 1) - 1) + f.fracBits - 1

/-- The sign bit of an operand word: `vin[31]` in binary32 (30_encoding.md R46). -/
def signField (f : Format) (b : Volts) : Bool := decide (b.toNat / 2 ^ (f.expBits + f.fracBits) % 2 = 1)

/-- The exponent field of an operand word: `vin[30:23]` in binary32 (30_encoding.md R46). -/
def expField (f : Format) (b : Volts) : Nat := b.toNat / 2 ^ f.fracBits % 2 ^ f.expBits

/-- The fraction field of an operand word: `vin[22:0]` in binary32 (30_encoding.md R46). -/
def fracField (f : Format) (b : Volts) : Nat := b.toNat % 2 ^ f.fracBits

/-- The value an operand word stands for (30_encoding.md R46). Subnormals are honoured, not flushed. -/
def unpack (f : Format) (b : Volts) : Fp :=
  if expField f b = 2 ^ f.expBits - 1 then
    if fracField f b = 0 then .inf (signField f b) else .nan
  else if expField f b = 0 then .fin (signField f b) (fracField f b)
  else .fin (signField f b) ((2 ^ f.fracBits + fracField f b) * 2 ^ (expField f b - 1))

/-- The whole number nearest to `n / d`, ties to even (00_scope.md R9, "round to nearest, ties to even"). -/
def roundHalfEven (n d : Nat) : Nat :=
  if 2 * (n % d) < d then n / d
  else if d < 2 * (n % d) then n / d + 1
  else n / d + n / d % 2

/-- The exponent of the format's grid around a magnitude of whole part `q`: neighbouring values there differ by
`2 ^ gridExp f q` units. It is 0 for subnormals and the first normal binade. -/
def gridExp (f : Format) (q : Nat) : Nat := q.log2 - f.fracBits

/-- The magnitude `n / d` (in units) rounded to the format's grid, with no bound on the exponent. -/
def roundMag (f : Format) (n d : Nat) : Nat :=
  roundHalfEven n (d * 2 ^ gridExp f (n / d)) * 2 ^ gridExp f (n / d)

/-- The binary logarithm, in units, of the least magnitude too large for the format: for binary32 it is 277, since
2^277 units are 2^128. -/
def overflowLog (f : Format) : Nat := f.fracBits + 2 ^ f.expBits - 2

/-- `±n / d` units correctly rounded to nearest even: past the largest finite value the result is an infinity, and an
underflow keeps its sign (00_scope.md R9). -/
def roundTo (f : Format) (neg : Bool) (n d : Nat) : Fp :=
  if (roundMag f n d).log2 < overflowLog f then .fin neg (roundMag f n d) else .inf neg

/-- The signed whole number of units of a finite value. -/
def signedMag (neg : Bool) (mag : Nat) : Int := if neg then -(mag : Int) else (mag : Int)

/-- An exact signed sum of finite values, rounded; `zeroNeg` is the sign of the result where the sum is exactly 0. -/
def roundSum (f : Format) (zeroNeg : Bool) (z : Int) : Fp :=
  if z = 0 then .fin zeroNeg 0 else roundTo f (decide (z < 0)) z.natAbs 1

/-- The value with its sign turned. -/
def fneg : Fp → Fp
  | .nan => .nan
  | .inf s => .inf (!s)
  | .fin s m => .fin (!s) m

/-- IEEE 754 addition (00_scope.md R9). An exact zero sum is +0 unless both operands are -0. -/
def fadd (f : Format) : Fp → Fp → Fp
  | .nan, _ => .nan
  | .inf _, .nan => .nan
  | .inf s, .inf t => if s = t then .inf s else .nan
  | .inf s, .fin _ _ => .inf s
  | .fin _ _, .nan => .nan
  | .fin _ _, .inf t => .inf t
  | .fin s a, .fin t b => roundSum f (s && t) (signedMag s a + signedMag t b)

/-- IEEE 754 subtraction (00_scope.md R9). -/
def fsub (f : Format) (a b : Fp) : Fp := fadd f a (fneg b)

/-- IEEE 754 multiplication (00_scope.md R9). -/
def fmul (f : Format) : Fp → Fp → Fp
  | .nan, _ => .nan
  | .inf _, .nan => .nan
  | .inf s, .inf t => .inf (s ^^ t)
  | .inf s, .fin t b => if b = 0 then .nan else .inf (s ^^ t)
  | .fin _ _, .nan => .nan
  | .fin s a, .inf t => if a = 0 then .nan else .inf (s ^^ t)
  | .fin s a, .fin t b => roundTo f (s ^^ t) (a * b) (2 ^ unitShift f)

/-- IEEE 754 division (00_scope.md R9). -/
def fdiv (f : Format) : Fp → Fp → Fp
  | .nan, _ => .nan
  | .inf _, .nan => .nan
  | .inf _, .inf _ => .nan
  | .inf s, .fin t _ => .inf (s ^^ t)
  | .fin _ _, .nan => .nan
  | .fin s _, .inf t => .fin (s ^^ t) 0
  | .fin s a, .fin t b =>
    if b = 0 then (if a = 0 then .nan else .inf (s ^^ t))
    else roundTo f (s ^^ t) (a * 2 ^ unitShift f) b

/-- `isNaN(a)` (00_scope.md R9). -/
def isNaN : Fp → Bool
  | .nan => true
  | .inf _ => false
  | .fin _ _ => false

/-- Neither an infinity nor a NaN, as 00_scope.md R6 asks of the parameters. -/
def isFinite : Fp → Bool
  | .nan => false
  | .inf _ => false
  | .fin _ _ => true

/-- The IEEE 754 quiet comparison `a < b`: false with a NaN, and -0.0 equals +0.0 (00_scope.md R9). -/
def flt : Fp → Fp → Bool
  | .nan, _ => false
  | .inf _, .nan => false
  | .inf s, .inf t => s && !t
  | .inf s, .fin _ _ => s
  | .fin _ _, .nan => false
  | .fin _ _, .inf t => !t
  | .fin s a, .fin t b => decide (signedMag s a < signedMag t b)

/-- The IEEE 754 quiet comparison `a ≤ b` (00_scope.md R9). -/
def fle : Fp → Fp → Bool
  | .nan, _ => false
  | .inf _, .nan => false
  | .inf s, .inf t => s || !t
  | .inf s, .fin _ _ => s
  | .fin _ _, .nan => false
  | .fin _ _, .inf t => !t
  | .fin s a, .fin t b => decide (signedMag s a ≤ signedMag t b)

/-- The IEEE 754 quiet comparison `a > b` (00_scope.md R9). -/
def fgt (a b : Fp) : Bool := flt b a

/-- The IEEE 754 quiet comparison `a ≥ b` (00_scope.md R9). -/
def fge (a b : Fp) : Bool := fle b a

/-- `fl32(±num/den)`: a decimal literal rounded to the format (00_scope.md R9). The sign of a zero literal is kept, as
the operand −0.0 of 95_test_vectors.md V-S2 needs. -/
def fl32 (f : Format) (neg : Bool) (num den : Nat) : Fp := roundTo f neg (num * 2 ^ unitShift f) den

/-- The sign bit in its place in an operand word. -/
def signWord (f : Format) (neg : Bool) : Nat := if neg then 2 ^ (f.expBits + f.fracBits) else 0

/-- The operand word of a value, the inverse of `unpack`; `nan` is the quiet NaN of 30_encoding.md R51, 0x7FC00000 in
binary32. -/
def pack (f : Format) : Fp → Volts
  | .nan => BitVec.ofNat 32 ((2 ^ f.expBits - 1) * 2 ^ f.fracBits + 2 ^ (f.fracBits - 1))
  | .inf s => BitVec.ofNat 32 (signWord f s + (2 ^ f.expBits - 1) * 2 ^ f.fracBits)
  | .fin s m => BitVec.ofNat 32 (signWord f s + gridExp f m * 2 ^ f.fracBits + m / 2 ^ gridExp f m)

end Sys2Proof.Machine
end

