-- ==== Sys2Proof/Machine/Operands.lean ====
section
/-! DEFINITION. The one operand form of the block: the raw voltage `vin`, rescaled into the normalised domain
(30_encoding.md R46, R47; 40_comparator_ops.md R53, R54). -/

namespace Sys2Proof.Machine

/-- `SPAN = fsub(V_HI, V_LO)` (40_comparator_ops.md R53). -/
def span (p : Params) : Fp := fsub p.fmt (unpack p.fmt p.vHi) (unpack p.fmt p.vLo)

/-- `YSPAN = fsub(Y_HI, Y_LO)` (40_comparator_ops.md R53). -/
def ySpan (p : Params) : Fp := fsub p.fmt (unpack p.fmt p.yHi) (unpack p.fmt p.yLo)

/-- `N(v)` on values, in the operation order of 40_comparator_ops.md R53. Nothing is clamped (R54). -/
def rescaleFp (p : Params) (v : Fp) : Fp :=
  fadd p.fmt (unpack p.fmt p.yLo)
    (fmul p.fmt (fdiv p.fmt (fsub p.fmt v (unpack p.fmt p.vLo)) (span p)) (ySpan p))

/-- `N(vin)`: the normalised value of a raw voltage (40_comparator_ops.md R53). -/
def rescale (p : Params) (vin : Volts) : Fp := rescaleFp p (unpack p.fmt vin)

end Sys2Proof.Machine
end

