-- ==== Sys2Proof/Machine/Flags.lean ====
section
/-! DEFINITION. How a STEP computes the block's one status flag `wasHigh` and the edge output `fire`
(10_state.md R19; 40_comparator_ops.md R55 to R57). -/

namespace Sys2Proof.Machine

/-- `H(u)`, the upper threshold test (40_comparator_ops.md R55). -/
def aboveHi (p : Params) (u : Fp) : Bool :=
  if p.threshInclusive then fge u (unpack p.fmt p.tHi) else fgt u (unpack p.fmt p.tHi)

/-- `L(u)`, the lower threshold test (40_comparator_ops.md R56). -/
def belowLo (p : Params) (u : Fp) : Bool :=
  if p.threshInclusive then fle u (unpack p.fmt p.tLo) else flt u (unpack p.fmt p.tLo)

/-- `S(w, u) -> (w', fire)`, the transition function (40_comparator_ops.md R57). -/
def transition (p : Params) (w : Bool) (u : Fp) : Bool × Bool :=
  if w = false ∧ aboveHi p u = true then (true, true)
  else if w = true ∧ belowLo p u = true then (false, false)
  else (w, false)

end Sys2Proof.Machine
end

