-- ==== Sys2Proof/Machine/State.lean ====
section
/-! DEFINITION. The state of the block as plain data, the reasons a step can stop, and the state after reset. -/

namespace Sys2Proof.Machine

/-- The two outputs of one tick (10_state.md R26, 40_comparator_ops.md R61). -/
structure Outputs where
  /-- 1 in exactly the ticks in which a rising edge is taken. -/
  fire : Bool
  /-- `wasHigh` at the start of the tick. -/
  high : Bool
  deriving DecidableEq, Repr

/-- What the host can do to the block (70_reset_and_hazards.md R107). -/
inductive HostMove where
  /-- One rising edge of `clk`, with a command word on `rst`, `conn` and `vin`. -/
  | tick (cmd : Word)
  /-- No edge: the clock is stopped (60_exceptions.md R94). -/
  | stopClock
  /-- Power is removed, if it was there, and applied (60_exceptions.md R94, 70_reset_and_hazards.md R97). -/
  | powerOn
  deriving DecidableEq, Repr

/-- The machine. `wasHigh` is all the state the spec gives the block (10_state.md R15); the other fields are its ports,
its elaboration parameters, and the counter of the free value. -/
structure State where
  /-- The one state bit (10_state.md R15, R16). -/
  wasHigh  : Bool
  /-- The outputs of the tick the last step took; none where the last step was no tick. DESIGN CHOICE,
  safe: nothing is said of the ports then (log entry 5). -/
  out      : Option Outputs
  /-- The elaboration parameters, which no command reads as an operand or writes (00_scope.md R6). DESIGN CHOICE,
  safe: carried here so that statements speak of every parameter set (log entry 1). -/
  params   : Params
  /-- What the host does next, oldest first: the rest of the run (70_reset_and_hazards.md R106).
  DESIGN CHOICE, safe: every sequence of moves is some list (log entry 2). -/
  moves    : List HostMove
  /-- The model's own: how many power-on draws were taken, the argument of `Config.powerOnDraw`.
  DESIGN CHOICE, safe: the draw itself is free (log entry 4). -/
  powerOns : Nat
  deriving DecidableEq, Repr

/-- Reasons the machine stops with a fault: none. "No command and no operand value traps, faults or stops the block."
(60_exceptions.md R83). -/
inductive Fault where
  deriving DecidableEq, Repr

/-- Reasons there is no meaning. -/
inductive Refusal where
  /-- An instruction whose meaning is not written. Raised by no arm of `exec`. SAFE: it would stop a run. -/
  | notModelled (mnemonic : String)
  /-- A parameter set that 00_scope.md R6 says a model refuses to elaborate. Raised by `elaborate` only, never by a
  command. SAFE: the spec asks for it. -/
  | illegalParameters
  deriving DecidableEq, Repr

/-- The block with the default parameters right after a RESET: `wasHigh` is `RESET_VALUE`, 0 (10_state.md R24). No
output is held and the host has nothing pending (log entries 2 and 5); no draw has been taken (log entry 4). -/
def State.reset : State where
  wasHigh  := Params.default.resetValue
  out      := none
  params   := Params.default
  moves    := []
  powerOns := 0

end Sys2Proof.Machine
end

