-- ==== Sys2Proof/Machine/Legal.lean ====
section
/-! DEFINITION. The checks of a parameter set (00_scope.md R6). -/

namespace Sys2Proof.Machine

/-- The format's fields fill the 32 wires of `vin` under the sign bit, and are wide enough to hold IEEE 754's special
encodings (log entry 3). -/
def fitsPort (f : Format) : Bool :=
  decide (2 ≤ f.expBits) && decide (1 ≤ f.fracBits) && decide (f.expBits + f.fracBits = 31)

/-- Two parameters are finite and the first is below the second, as 00_scope.md R6 asks of each pair. -/
def risingPair (f : Format) (lo hi : Volts) : Bool :=
  isFinite (unpack f lo) && isFinite (unpack f hi) && flt (unpack f lo) (unpack f hi)

end Sys2Proof.Machine
end

