-- ==== Sys2Proof/WellFormed.lean ====
section
/-! DEFINITION. What is well formed: every command (30_encoding.md R48), and the legal parameter sets
(00_scope.md R6). -/

namespace Sys2Proof

open Sys2Proof.Machine

/-- Every command is well formed: no encoding is illegal or reserved (30_encoding.md R48), and a STEP with any operand,
NaNs among them, is legal (30_encoding.md R49). -/
def Instr.wellFormed : Instr → Bool
  | .reset => true
  | .step _ => true
  | .hold => true

/-- "A legal parameter set has finite `V_LO` < `V_HI`, finite `Y_LO` < `Y_HI` and finite `T_LO` < `T_HI`."
(00_scope.md R6), over a format that fits the port (log entry 3). -/
def Params.legal (p : Params) : Bool :=
  fitsPort p.fmt && risingPair p.fmt p.vLo p.vHi && risingPair p.fmt p.yLo p.yHi && risingPair p.fmt p.tLo p.tHi

end Sys2Proof
end

