-- ==== Sys2Proof/Machine/Ops.lean ====
section
/-! DEFINITION. The named operations over the state. The block has no memory (20_memory.md R28), so none acts on one,
and no trap entry or return (60_exceptions.md R83, R88, R89), so there is no operation that takes an exception. -/

namespace Sys2Proof.Machine

/-- The end of a tick: `wasHigh` takes `w'`, and the outputs are `fire` and `high`, the state at the start of the tick
(40_comparator_ops.md R61). Every command ends in it. -/
def finishTick (s : State) (w' fire : Bool) : State :=
  { s with wasHigh := w', out := some { fire := fire, high := s.wasHigh } }

/-- The host's remaining moves become `ms`. -/
def setMoves (s : State) (ms : List HostMove) : State := { s with moves := ms }

/-- A step without a clock edge: the state bit is held (60_exceptions.md R94), and no output is said to be there
(70_reset_and_hazards.md R106, log entry 5). -/
def noEdge (s : State) : State := { s with out := none }

/-- Power-on: the state bit takes the value `draw` (70_reset_and_hazards.md R97); no tick has happened. -/
def powerUp (s : State) (draw : Bool) : State :=
  { s with wasHigh := draw, out := none, powerOns := s.powerOns + 1 }

/-- Power-on with the model's next free draw (10_state.md R25). -/
def drawPowerOn (s : State) : State := powerUp s (Config.powerOnDraw s.powerOns)

/-- A block with the parameters `p` at power-on with the drawn state `draw` (70_reset_and_hazards.md R97). -/
def powerOnState (p : Params) (draw : Bool) : State where
  wasHigh  := draw
  out      := none
  params   := p
  moves    := []
  powerOns := 0

/-- Elaboration (00_scope.md R6): "A model refuses to elaborate any other set." -/
def elaborate (p : Params) (draw : Bool) : Host.Outcome State Fault Refusal :=
  if p.legal then .next (powerOnState p draw) else .refused .illegalParameters

end Sys2Proof.Machine
end

