-- ==== Sys2Proof/Machine/Comparator.lean ====
section
/-! DEFINITION. The meanings of the three commands (40_comparator_ops.md R62 to R64). None raises an exception, for any
operand (60_exceptions.md R83). -/

namespace Sys2Proof.Machine

/-- RESET (40_comparator_ops.md R64): `wasHigh` takes `RESET_VALUE`, and no edge is taken. -/
def execReset (s : State) : Host.Outcome State Fault Refusal :=
  .next (finishTick s s.params.resetValue false)

/-- STEP (40_comparator_ops.md R62): the rescaled operand is compared, from the state before any write. -/
def execStep (vin : Volts) (s : State) : Host.Outcome State Fault Refusal :=
  .next (finishTick s (transition s.params s.wasHigh (rescale s.params vin)).1
    (transition s.params s.wasHigh (rescale s.params vin)).2)

/-- HOLD (40_comparator_ops.md R63): the state is held and `fire` is the neutral 0. -/
def execHold (s : State) : Host.Outcome State Fault Refusal :=
  .next (finishTick s s.wasHigh false)

end Sys2Proof.Machine
end

