-- ==== Sys2Proof/Machine/Dispatch.lean ====
section
/-! DEFINITION. One arm per command (spec/opcode_table.json). -/

namespace Sys2Proof.Machine

def exec (i : Instr) (s : State) : Host.Outcome State Fault Refusal :=
  match i with
  | .reset => Sys2Proof.Machine.execReset s
  | .step vin => Sys2Proof.Machine.execStep vin s
  | .hold => Sys2Proof.Machine.execHold s

end Sys2Proof.Machine
end

