-- ==== Sys2Proof/Machine/Tick.lean ====
section
/-! DEFINITION. One tick, and one move of the host (00_scope.md R10; 70_reset_and_hazards.md R107). -/

namespace Sys2Proof.Machine

/-- One tick: the command word is sampled whole, decoded and carried out (20_memory.md R31, 40_comparator_ops.md R65). -/
def tick (cmd : Word) (s : State) : Host.Outcome State Fault Refusal := exec (decode cmd) s

/-- The block's answer to one move of the host (70_reset_and_hazards.md R107). -/
def hostMove (m : HostMove) (s : State) : Host.Outcome State Fault Refusal :=
  match m with
  | .tick cmd => tick cmd s
  | .stopClock => .next (noEdge s)
  | .powerOn => .next (drawPowerOn s)

/-- The next move of the run, taken off the list. With nothing left to do the host gives no edge: the block never stops
itself (70_reset_and_hazards.md R106). -/
def nextMove (s : State) : Host.Outcome State Fault Refusal :=
  match s.moves with
  | [] => .next (noEdge s)
  | m :: rest => hostMove m (setMoves s rest)

/-- The host is about to present the command word `cmd`, before anything else it does. -/
def presentNext (s : State) (cmd : Word) : State := setMoves s (.tick cmd :: s.moves)

end Sys2Proof.Machine
end

