-- ==== Sys2Proof/Machine/Step.lean ====
section
/-! DEFINITION. The step function of the machine, and where it fetches its next command. -/

namespace Sys2Proof.Machine

/-- One step: the host's next move and the block's answer to it (00_scope.md R10, 70_reset_and_hazards.md R107). -/
def step (s : State) : Host.Outcome State Fault Refusal := nextMove s

/-- `s` with the command of the bits `w` on the input ports of its next tick. A number that does not fit the port's 34
wires is no command and changes nothing. -/
def State.withFetchWord (s : State) (nbits w : Nat) : State :=
  match tableWord nbits w with
  | some cmd => presentNext s cmd
  | none => s

end Sys2Proof.Machine
end

