-- ==== Sys2Proof/Machine/Instances.lean ====
section
/-! DEFINITION. The six instances of the tempo client and the commands it presents to them (41_instances_and_clients.md).
What the client does with `fire` is out of scope (00_scope.md R5). -/

namespace Sys2Proof.Machine

/-- The client's six instances (41_instances_and_clients.md R76). -/
inductive Inst where
  | etFaster3 | etFaster2 | etFaster1 | etSlower1 | etReset | etPlay
  deriving DecidableEq, Repr

/-- The six instances in the order of the table of 41_instances_and_clients.md R76. -/
def allInsts : List Inst := [.etFaster3, .etFaster2, .etFaster1, .etSlower1, .etReset, .etPlay]

/-- Six blocks, each with its own state (41_instances_and_clients.md R81). -/
structure Bank where
  faster3 : State
  faster2 : State
  faster1 : State
  slower1 : State
  reset   : State
  play    : State
  deriving DecidableEq, Repr

/-- The state of one instance. -/
def bankGet (b : Bank) : Inst → State
  | .etFaster3 => b.faster3
  | .etFaster2 => b.faster2
  | .etFaster1 => b.faster1
  | .etSlower1 => b.slower1
  | .etReset => b.reset
  | .etPlay => b.play

/-- One instance's state replaced. -/
def bankSet (b : Bank) (i : Inst) (s : State) : Bank :=
  match i with
  | .etFaster3 => { b with faster3 := s }
  | .etFaster2 => { b with faster2 := s }
  | .etFaster1 => { b with faster1 := s }
  | .etSlower1 => { b with slower1 := s }
  | .etReset => { b with reset := s }
  | .etPlay => { b with play := s }

/-- The six blocks at power-on, each with its own draw and the default parameters (41_instances_and_clients.md R76). -/
def bankPowerOn (d3 d2 d1 ds dr dp : Bool) : Bank where
  faster3 := powerOnState Params.default d3
  faster2 := powerOnState Params.default d2
  faster1 := powerOnState Params.default d1
  slower1 := powerOnState Params.default ds
  reset   := powerOnState Params.default dr
  play    := powerOnState Params.default dp

/-- A port of the host: its "connected" flag and its voltage (10_state.md R26). -/
structure Port where
  connected : Bool
  volts     : Volts
  deriving DecidableEq, Repr

/-- The command a client presents for a port: STEP with its voltage where it is connected, HOLD where it is not
(41_instances_and_clients.md R77). -/
def portCommand (q : Port) : Word := if q.connected then encode (.step q.volts) else encode .hold

/-- One command presented to one instance. -/
def bankTick (b : Bank) (i : Inst) (cmd : Word) : Host.Outcome Bank Fault Refusal :=
  match tick cmd (bankGet b i) with
  | .next s => .next (bankSet b i s)
  | .fault e => .fault e
  | .refused e => .refused e

/-- Commands presented to instances in the order of the list. -/
def bankTicks : List (Inst × Word) → Bank → Host.Outcome Bank Fault Refusal
  | [], b => .next b
  | ic :: rest, b =>
    match bankTick b ic.1 ic.2 with
    | .next b' => bankTicks rest b'
    | .fault e => .fault e
    | .refused e => .refused e

/-- One audio sample of the client: one command to each instance (41_instances_and_clients.md R77). -/
def bankSample (ports : Inst → Port) (b : Bank) : Host.Outcome Bank Fault Refusal :=
  bankTicks (allInsts.map (fun i => (i, portCommand (ports i)))) b

end Sys2Proof.Machine
end

