-- ==== Sys2Proof/Machine/Stimulus.lean ====
section
/-! DEFINITION. The textual form of a command and the pseudo-commands (30_encoding.md R51, R52): the lines, the word each
assembles to, and the reading of a line's characters. A text is a list of characters. -/

namespace Sys2Proof.Machine

/-- The `<value>` of a STEP line (30_encoding.md R51). -/
inductive Literal where
  /-- The decimal literal `±digits / 10 ^ scale`. -/
  | decimal (neg : Bool) (digits scale : Nat)
  | inf
  | negInf
  | nan
  deriving DecidableEq, Repr

/-- One line of stimulus, which is one tick (30_encoding.md R51), pseudo-commands included (R52). -/
inductive Line where
  | reset
  | hold
  | step (v : Literal)
  | stepBits (bits : Volts)
  | word (w : Word)
  | stepHi
  | stepLo
  | idle
  deriving DecidableEq, Repr

/-- The bits of a literal: `bits(fl32(v))`, and `nan` is the quiet NaN (30_encoding.md R51). -/
def literalBits (f : Format) : Literal → Volts
  | .decimal neg digits scale => pack f (fl32 f neg digits (10 ^ scale))
  | .inf => pack f (.inf false)
  | .negInf => pack f (.inf true)
  | .nan => pack f .nan

/-- The line a pseudo-command stands for; every other line stands for itself (30_encoding.md R52). -/
def expandPseudo : Line → Line
  | .stepHi => .step (.decimal false 100 1)
  | .stepLo => .step (.decimal false 0 1)
  | .idle => .hold
  | .reset => .reset
  | .hold => .hold
  | .step v => .step v
  | .stepBits b => .stepBits b
  | .word w => .word w

/-- The canonical word of a line that is no pseudo-command (30_encoding.md R51). -/
def coreWord (f : Format) : Line → Word
  | .reset => encode .reset
  | .hold => encode .hold
  | .step v => encode (.step (literalBits f v))
  | .stepBits b => encode (.step b)
  | .word w => w
  | .stepHi => encode .hold
  | .stepLo => encode .hold
  | .idle => encode .hold

/-- The word a line assembles to (30_encoding.md R51, R52). -/
def assemble (f : Format) (l : Line) : Word := coreWord f (expandPseudo l)

/-- Why a text is no line of stimulus. -/
inductive StimulusError where
  /-- It is none of the forms of 30_encoding.md R51 and R52. SAFE: nothing is presented to the block. -/
  | notALine
  /-- The number of a WORD line needs more than 34 bits. SAFE: nothing is presented to the block. -/
  | wordTooWide
  deriving DecidableEq, Repr

/-- `;` begins a comment (30_encoding.md R51). -/
def stripComment (cs : List Char) : List Char := cs.takeWhile (fun c => c != ';')

/-- The pieces of a text between blanks, empty pieces among them. -/
def splitBlanks : List Char → List (List Char)
  | [] => [[]]
  | c :: cs =>
    if c == ' ' || c == '\t' then [] :: splitBlanks cs
    else
      match splitBlanks cs with
      | [] => [[c]]
      | t :: ts => (c :: t) :: ts

/-- The words of a text. -/
def tokens (cs : List Char) : List (List Char) := (splitBlanks cs).filter (fun t => !t.isEmpty)

/-- The value of a digit in base `base`, at most 16. -/
def digitValue (base : Nat) (c : Char) : Option Nat :=
  let n := c.toNat
  let v :=
    if 48 ≤ n ∧ n ≤ 57 then n - 48
    else if 65 ≤ n ∧ n ≤ 70 then n - 55
    else if 97 ≤ n ∧ n ≤ 102 then n - 87
    else base
  if v < base then some v else none

/-- The number a string of digits denotes, read on from `acc`. -/
def digitsFrom (base : Nat) : Nat → List Char → Option Nat
  | acc, [] => some acc
  | acc, c :: cs =>
    match digitValue base c with
    | some v => digitsFrom base (acc * base + v) cs
    | none => none

/-- The number of `0x` and exactly `len` hexadecimal digits (30_encoding.md R51). DESIGN CHOICE, safe: the digit separator
`_` of 00_scope.md R8 is no digit and may not stand among them, since R51 writes none (log entry 13). -/
def readHex (len : Nat) : List Char → Option Nat
  | '0' :: 'x' :: ds => if ds.length = len then digitsFrom 16 0 ds else none
  | _ => none

/-- An unsigned decimal: one digit or more and, with a point, one digit or more after it. -/
def readUnsigned (neg : Bool) (cs : List Char) : Option Literal :=
  let whole := cs.takeWhile (fun c => c != '.')
  let rest := cs.drop whole.length
  let frac := rest.drop 1
  if whole.isEmpty || (!rest.isEmpty && frac.isEmpty) then none
  else (digitsFrom 10 0 (whole ++ frac)).map (fun n => .decimal neg n frac.length)

/-- A `<value>`: a decimal literal, `inf`, `-inf` or `nan` (30_encoding.md R51). -/
def readLiteral : List Char → Option Literal
  | ['i', 'n', 'f'] => some .inf
  | ['-', 'i', 'n', 'f'] => some .negInf
  | ['n', 'a', 'n'] => some .nan
  | '-' :: cs => readUnsigned true cs
  | cs => readUnsigned false cs

/-- The operand of a STEP line: raw bits or a `<value>` (30_encoding.md R51). -/
def readStepOperand (t : List Char) : Except StimulusError Line :=
  match readHex 8 t with
  | some n => .ok (.stepBits (BitVec.ofNat 32 n))
  | none =>
    match readLiteral t with
    | some v => .ok (.step v)
    | none => .error .notALine

/-- The operand of a WORD line (30_encoding.md R51). -/
def readWordOperand (t : List Char) : Except StimulusError Line :=
  match readHex 9 t with
  | some n =>
    match wordOfNat n with
    | .ok w => .ok (.word w)
    | .error _ => .error .wordTooWide
  | none => .error .notALine

/-- The line its words make (30_encoding.md R51, R52). -/
def readTokens : List (List Char) → Except StimulusError Line
  | [['R', 'E', 'S', 'E', 'T']] => .ok .reset
  | [['H', 'O', 'L', 'D']] => .ok .hold
  | [['I', 'D', 'L', 'E']] => .ok .idle
  | [['S', 'T', 'E', 'P', '.', 'H', 'I']] => .ok .stepHi
  | [['S', 'T', 'E', 'P', '.', 'L', 'O']] => .ok .stepLo
  | [['S', 'T', 'E', 'P'], t] => readStepOperand t
  | [['W', 'O', 'R', 'D'], t] => readWordOperand t
  | _ => .error .notALine

/-- The line a text is (30_encoding.md R51). -/
def readLine (cs : List Char) : Except StimulusError Line := readTokens (tokens (stripComment cs))

end Sys2Proof.Machine
end

