-- ==== Sys2Proof/Machine/Run.lean ====
section
/-! DEFINITION. A run and what is observed of it (00_scope.md R11, 70_reset_and_hazards.md R106). -/

namespace Sys2Proof.Machine

/-- What is observed of a run: the output trace `(fire_n, high_n)` of its ticks and the end state
(70_reset_and_hazards.md R106). -/
structure RunRecord where
  trace : List Outputs
  final : State
  deriving DecidableEq, Repr

/-- The record of a run whose first step ends in `t`. A step without a tick adds nothing to the trace. -/
def RunRecord.after (t : State) (r : RunRecord) : RunRecord := { trace := t.out.toList ++ r.trace, final := r.final }

/-- `k` steps, with their outputs. -/
def runSteps : Nat → State → Host.Outcome RunRecord Fault Refusal
  | 0, s => .next { trace := [], final := s }
  | k + 1, s =>
    match step s with
    | .next t =>
      match runSteps k t with
      | .next r => .next (RunRecord.after t r)
      | .fault e => .fault e
      | .refused e => .refused e
    | .fault e => .fault e
    | .refused e => .refused e

/-- The run of the commands `cmds`, one a tick, from the start state `s` (70_reset_and_hazards.md R106). -/
def runCommands (cmds : List Word) (s : State) : Host.Outcome RunRecord Fault Refusal :=
  runSteps cmds.length (setMoves s (cmds.map HostMove.tick))

end Sys2Proof.Machine
end

