-- ==== Sys2Proof/Safety.lean ====
section
/-! DEFINITION. The terms in which claims about the machine are stated: its invariant, the spec's complete step function,
what ends a high interval, and what two machines have in common. -/

namespace Sys2Proof

open Sys2Proof.Machine

/-- What every step keeps: the parameters are a legal set (00_scope.md R6), and where the last tick fired, it was a rising
edge: the state was 0 at its start and is 1 after it (40_comparator_ops.md R68). -/
structure Inv (s : State) : Prop where
  paramsLegal  : s.params.legal = true
  fireIsRising : ∀ o, s.out = some o → o.fire = true → o.high = false ∧ s.wasHigh = true

/-- The complete step function as 40_comparator_ops.md R65 writes it, `step(w, cmd) -> (w', fire, high)`, on the bits of
the command word. -/
def completeStep (p : Params) (w : Bool) (cmd : Word) : Bool × Bool × Bool :=
  if cmd.getLsbD 33 = true then (p.resetValue, false, w)
  else if cmd.getLsbD 32 = false then (w, false, w)
  else if w = false ∧ aboveHi p (rescale p (cmd.extractLsb' 0 32)) = true then (true, true, w)
  else if w = true ∧ belowLo p (rescale p (cmd.extractLsb' 0 32)) = true then (false, false, w)
  else (w, false, w)

/-- A STEP whose operand takes a high state low: `L(N(vin))` holds (40_comparator_ops.md R66). -/
def isFallingStep (p : Params) (cmd : Word) : Bool :=
  match decode cmd with
  | .reset => false
  | .step vin => belowLo p (rescale p vin)
  | .hold => false

/-- The command ends a high interval: a RESET, or a falling STEP (40_comparator_ops.md R66). -/
def endsInterval (p : Params) (cmd : Word) : Bool :=
  match decode cmd with
  | .reset => true
  | .step vin => belowLo p (rescale p vin)
  | .hold => false

/-- A magnitude the format can hold but for its exponent's bound: a significand of `fracBits + 1` bits times a power of
two, in least subnormals (00_scope.md R9, 30_encoding.md R46). -/
def onGrid (f : Format) (m : Nat) : Prop := ∃ c j, c < 2 ^ (f.fracBits + 1) ∧ m = c * 2 ^ j

/-- The real number a finite value stands for; 0 for the others, of which no claim asks it (30_encoding.md R46). -/
def fpValue (f : Format) : Fp → ℚ
  | .nan => 0
  | .inf _ => 0
  | .fin s m => (signedMag s m : ℚ) / 2 ^ unitShift f

/-- The magnitude of a real number, correctly rounded to nearest even under the sign `neg` (00_scope.md R9). -/
def roundReal (f : Format) (neg : Bool) (x : ℚ) : Fp := roundTo f neg (x.num.natAbs * 2 ^ unitShift f) x.den

/-- A command that takes no rising edge from state 0: HOLD, or a STEP whose operand does not satisfy H. -/
def cannotRise (p : Params) (cmd : Word) : Bool :=
  match decode cmd with
  | .reset => false
  | .step vin => !aboveHi p (rescale p vin)
  | .hold => true

/-- A command that takes no fall from state 1: HOLD, or a STEP whose operand does not satisfy L. -/
def cannotFall (p : Params) (cmd : Word) : Bool :=
  match decode cmd with
  | .reset => false
  | .step vin => !belowLo p (rescale p vin)
  | .hold => true

/-- The n-th tick of the trace fired. -/
def firedAt (r : RunRecord) (n : Nat) : Prop := ∃ o, r.trace[n]? = some o ∧ o.fire = true

/-- A run computed from the complete step function alone: `s_(n+1)` and `(fire_n, high_n)` from `s_n` and `cmd_n`
(00_scope.md R10, R11). -/
def foldCompleteStep (p : Params) : Bool → List Word → List Outputs × Bool
  | w, [] => ([], w)
  | w, c :: cs =>
    ({ fire := (completeStep p w c).2.1, high := (completeStep p w c).2.2 } ::
        (foldCompleteStep p (completeStep p w c).1 cs).1,
      (foldCompleteStep p (completeStep p w c).1 cs).2)

/-- The command is not HOLD. -/
def isConnected (cmd : Word) : Bool := decode cmd != .hold

/-- The outputs of the ticks whose command is not HOLD. -/
def connectedOutputs (cmds : List Word) (trace : List Outputs) : List Outputs :=
  ((cmds.zip trace).filter (fun ct => isConnected ct.1)).map Prod.snd

/-- The edges of a trace, tick by tick. -/
def fires (r : RunRecord) : List Bool := r.trace.map (fun o => o.fire)

end Sys2Proof
end

