-- ==== Sys2Proof/Certificates/Slice0/Obligations.lean ====
section
/-! DEFINITION. The statements for the provers. Where a docstring says that the spec marks a sentence as derived, or that a
log entry made a choice, the statement is the model's and cites no rule for it. -/

open Sys2Proof Sys2Proof.Machine

/-! ### Encoding -/

/-- 30_encoding.md R45: the decode function, with `rst` before `conn`, for every one of the 2^34 words. -/
def Obligations.DecodeFollowsPriority : Prop :=
  ∀ w : Word,
    (w.getLsbD 33 = true → decode w = .reset) ∧
    (w.getLsbD 33 = false → w.getLsbD 32 = true → decode w = .step (w.extractLsb' 0 32)) ∧
    (w.getLsbD 33 = false → w.getLsbD 32 = false → decode w = .hold)

/-- 30_encoding.md section 2: the match and mask of each row, and that each word belongs to exactly one row, the one of
the command it decodes to. -/
def Obligations.OpcodeRowsPartitionTheWords : Prop :=
  ∀ w : Word,
    (opcodeTable.filter (fun r => rowSelects r w)).map (fun r => r.mnemonic) = [mnemonicOf (decode w)] ∧
    (decode w = .reset ↔ w &&& 0x200000000#34 = 0x200000000#34) ∧
    (∀ v : Volts, decode w = .step v ↔ w &&& 0x300000000#34 = 0x100000000#34 ∧ v = w.extractLsb' 0 32) ∧
    (decode w = .hold ↔ w &&& 0x300000000#34 = 0x000000000#34)

/-- 30_encoding.md sections 2 and 5: decoding a command's canonical word gives the command back, with every operand;
and the canonical word of what a word decodes to differs from that word in ignored bits only. -/
def Obligations.DecodeOfEncodeIsIdentity : Prop :=
  (∀ i : Instr, i.wellFormed = true → decode (encode i) = i) ∧
  (∀ w : Word, sameCaredBits (encode (decode w)) w = true)

/-- 30_encoding.md R48: every word is a well-formed command that runs, and ignored bits have no effect whatever their
values: words with the same cared-for bits are the same command and the same tick, and only those are. -/
def Obligations.IgnoredBitsHaveNoEffect : Prop :=
  (∀ (w : Word) (s : State), (decode w).wellFormed = true ∧ ∃ t, tick w s = .next t) ∧
  (∀ a b : Word, sameCaredBits a b = true ↔ decode a = decode b) ∧
  (∀ (a b : Word) (s : State), sameCaredBits a b = true → tick a s = tick b s)

/-- 95_test_vectors.md sections 3 and 4: a few words written out from the encodings decode to their commands. That
0x400000000, a number of more than 34 bits, decodes to none is the model's DESIGN CHOICE (log entry 11). -/
def Obligations.SampleWordsDecode : Prop :=
  decodeTableWord 40 0x200000000 = some .reset ∧
  decodeTableWord 40 0x341200000 = some .reset ∧
  decodeTableWord 40 0x141200000 = some (.step 0x41200000#32) ∧
  decodeTableWord 40 0x1FFFFFFFF = some (.step 0xFFFFFFFF#32) ∧
  decodeTableWord 40 0x0FFFFFFFF = some .hold ∧
  decodeTableWord 40 0x400000000 = none

/-- 30_encoding.md section 5: the canonical word of every line of stimulus, and the three pseudo-commands' words. The bits
of a decimal literal are those of its value correctly rounded (`bits(fl32(v))`), and in binary32 they stand for that
value; `inf`, `-inf` and `nan` have the bits of binary32's infinities and of the quiet NaN. -/
def Obligations.StimulusLinesAssemble : Prop :=
  (∀ f : Format, assemble f .reset = 0x200000000#34 ∧ assemble f .hold = 0x000000000#34 ∧
    assemble f .idle = 0x000000000#34 ∧
    (∀ w : Word, assemble f (.word w) = w) ∧
    (∀ b : Volts, assemble f (.stepBits b) = 0x100000000#34 ||| b.setWidth 34) ∧
    (∀ v : Literal, assemble f (.step v) = 0x100000000#34 ||| (literalBits f v).setWidth 34) ∧
    (∀ (neg : Bool) (digits scale : Nat),
      literalBits f (.decimal neg digits scale) = pack f (roundReal f neg ((digits : ℚ) / 10 ^ scale)))) ∧
  (∀ (neg : Bool) (digits scale : Nat),
    unpack .binary32 (literalBits .binary32 (.decimal neg digits scale)) =
      roundReal .binary32 neg ((digits : ℚ) / 10 ^ scale)) ∧
  literalBits .binary32 .inf = 0x7F800000#32 ∧
  literalBits .binary32 .negInf = 0xFF800000#32 ∧
  literalBits .binary32 .nan = 0x7FC00000#32 ∧
  assemble .binary32 .stepHi = 0x141200000#34 ∧
  assemble .binary32 .stepLo = 0x100000000#34 ∧
  assemble .binary32 (.step .nan) = 0x17FC00000#34

/-! ### The number format -/

/-- 30_encoding.md R46: the value of an operand word, field by field. A finite value is a number of least subnormals,
2^(-149). -/
def Obligations.OperandWordIsBinary32 : Prop :=
  ∀ v : Volts,
    ((v.extractLsb' 23 8).toNat = 255 → (v.extractLsb' 0 23).toNat = 0 →
      unpack .binary32 v = .inf (v.getLsbD 31)) ∧
    ((v.extractLsb' 23 8).toNat = 255 → (v.extractLsb' 0 23).toNat ≠ 0 → unpack .binary32 v = .nan) ∧
    ((v.extractLsb' 23 8).toNat = 0 → ∃ m : Nat, unpack .binary32 v = .fin (v.getLsbD 31) m ∧
      (m : ℚ) / 2 ^ 149 = ((v.extractLsb' 0 23).toNat : ℚ) / 2 ^ 23 / 2 ^ 126) ∧
    ((v.extractLsb' 23 8).toNat ≠ 0 → (v.extractLsb' 23 8).toNat ≠ 255 →
      ∃ m : Nat, unpack .binary32 v = .fin (v.getLsbD 31) m ∧
        (m : ℚ) / 2 ^ 149 =
          (1 + ((v.extractLsb' 0 23).toNat : ℚ) / 2 ^ 23) * (2 : ℚ) ^ (((v.extractLsb' 23 8).toNat : ℤ) - 127))

/-- 00_scope.md section 4: rounding is to nearest, ties to even, in every format that fits the port (which formats do is
log entry 3, DESIGN CHOICE). Below half a step past the largest finite value the result is finite: a value of the format,
of the sign asked for, that none is nearer than, and in a tie its significand is even. From there on it is an infinity. -/
def Obligations.RoundingIsNearestEven : Prop :=
  ∀ (f : Format) (neg : Bool) (n d : Nat), fitsPort f = true → 0 < d →
    (n < (2 ^ (f.fracBits + 2) - 1) * 2 ^ (2 ^ f.expBits - 4) * d →
      ∃ m : Nat, roundTo f neg n d = .fin neg m ∧
        onGrid f m ∧ m ≤ (2 ^ (f.fracBits + 1) - 1) * 2 ^ (2 ^ f.expBits - 3) ∧
        ∀ m' : Nat, onGrid f m' →
          |(m : ℚ) - (n : ℚ) / d| ≤ |(m' : ℚ) - (n : ℚ) / d| ∧
          (m' ≠ m → |(m : ℚ) - (n : ℚ) / d| = |(m' : ℚ) - (n : ℚ) / d| → (m / 2 ^ gridExp f m) % 2 = 0)) ∧
    ((2 ^ (f.fracBits + 2) - 1) * 2 ^ (2 ^ f.expBits - 4) * d ≤ n → roundTo f neg n d = .inf neg)

/-- 30_encoding.md sections 3 and 5: packing the value of an operand word that is no NaN gives the word back, so no bit of
an operand is dropped. -/
def Obligations.PackOfUnpackIsIdentity : Prop :=
  ∀ v : Volts, isNaN (unpack .binary32 v) = false → pack .binary32 (unpack .binary32 v) = v

/-- 00_scope.md section 4, `fadd` in every format: the exact sum of two finite values correctly rounded, an exact zero sum
+0 unless both operands are -0, infinities that agree or disagree, and NaN. -/
def Obligations.SumIsCorrectlyRounded : Prop :=
  ∀ f : Format,
    (∀ x : Fp, fadd f .nan x = .nan ∧ fadd f x .nan = .nan) ∧
    (∀ s : Bool, fadd f (.inf s) (.inf s) = .inf s ∧ fadd f (.inf s) (.inf (!s)) = .nan) ∧
    (∀ (s t : Bool) (b : Nat), fadd f (.inf s) (.fin t b) = .inf s ∧ fadd f (.fin t b) (.inf s) = .inf s) ∧
    (∀ (s t : Bool) (a b : Nat) (x : ℚ), x = fpValue f (.fin s a) + fpValue f (.fin t b) →
      (x ≠ 0 → fadd f (.fin s a) (.fin t b) = roundReal f (decide (x < 0)) x) ∧
      (x = 0 → fadd f (.fin s a) (.fin t b) = .fin (s && t) 0))

/-- 00_scope.md section 4, `fsub` in every format: the exact difference of two finite values correctly rounded, an exact
zero difference +0 unless it is -0 less +0, infinities, and NaN. -/
def Obligations.DifferenceIsCorrectlyRounded : Prop :=
  ∀ f : Format,
    (∀ x : Fp, fsub f .nan x = .nan ∧ fsub f x .nan = .nan) ∧
    (∀ s : Bool, fsub f (.inf s) (.inf s) = .nan ∧ fsub f (.inf s) (.inf (!s)) = .inf s) ∧
    (∀ (s t : Bool) (b : Nat), fsub f (.inf s) (.fin t b) = .inf s ∧ fsub f (.fin t b) (.inf s) = .inf (!s)) ∧
    (∀ (s t : Bool) (a b : Nat) (x : ℚ), x = fpValue f (.fin s a) - fpValue f (.fin t b) →
      (x ≠ 0 → fsub f (.fin s a) (.fin t b) = roundReal f (decide (x < 0)) x) ∧
      (x = 0 → fsub f (.fin s a) (.fin t b) = .fin (s && !t) 0))

/-- 00_scope.md section 4, `fmul` in every format: the exact product of two finite values correctly rounded under the
product of their signs, infinities, an infinity times a zero, and NaN. -/
def Obligations.ProductIsCorrectlyRounded : Prop :=
  ∀ f : Format,
    (∀ x : Fp, fmul f .nan x = .nan ∧ fmul f x .nan = .nan) ∧
    (∀ s t : Bool, fmul f (.inf s) (.inf t) = .inf (s ^^ t)) ∧
    (∀ s t : Bool, fmul f (.inf s) (.fin t 0) = .nan ∧ fmul f (.fin t 0) (.inf s) = .nan) ∧
    (∀ (s t : Bool) (b : Nat), b ≠ 0 →
      fmul f (.inf s) (.fin t b) = .inf (s ^^ t) ∧ fmul f (.fin t b) (.inf s) = .inf (s ^^ t)) ∧
    (∀ (s t : Bool) (a b : Nat),
      fmul f (.fin s a) (.fin t b) = roundReal f (s ^^ t) (fpValue f (.fin s a) * fpValue f (.fin t b)))

/-- 00_scope.md section 4, `fdiv` in every format: the exact quotient of two finite values correctly rounded under the
product of their signs, a division by zero, infinities, and NaN. -/
def Obligations.QuotientIsCorrectlyRounded : Prop :=
  ∀ f : Format,
    (∀ x : Fp, fdiv f .nan x = .nan ∧ fdiv f x .nan = .nan) ∧
    (∀ s t : Bool, fdiv f (.inf s) (.inf t) = .nan) ∧
    (∀ (s t : Bool) (b : Nat), fdiv f (.inf s) (.fin t b) = .inf (s ^^ t) ∧
      fdiv f (.fin t b) (.inf s) = .fin (t ^^ s) 0) ∧
    (∀ s t : Bool, fdiv f (.fin s 0) (.fin t 0) = .nan) ∧
    (∀ (s t : Bool) (a : Nat), a ≠ 0 → fdiv f (.fin s a) (.fin t 0) = .inf (s ^^ t)) ∧
    (∀ (s t : Bool) (a b : Nat), b ≠ 0 →
      fdiv f (.fin s a) (.fin t b) = roundReal f (s ^^ t) (fpValue f (.fin s a) / fpValue f (.fin t b)))

/-- 00_scope.md section 4, the quiet comparisons in every format: false with a NaN operand, by the real values of finite
operands (so -0.0 equals +0.0), and with the infinities at the two ends. -/
def Obligations.ComparisonsFollowValues : Prop :=
  (∀ x : Fp, flt .nan x = false ∧ flt x .nan = false ∧ fle .nan x = false ∧ fle x .nan = false) ∧
  (∀ (f : Format) (s t : Bool) (a b : Nat),
    (flt (.fin s a) (.fin t b) = true ↔ fpValue f (.fin s a) < fpValue f (.fin t b)) ∧
    (fle (.fin s a) (.fin t b) = true ↔ fpValue f (.fin s a) ≤ fpValue f (.fin t b))) ∧
  (∀ x : Fp, isNaN x = false → fle (.inf true) x = true ∧ fle x (.inf false) = true ∧
    (flt (.inf true) x = true ↔ x ≠ .inf true) ∧ (flt x (.inf false) = true ↔ x ≠ .inf false)) ∧
  (∀ x : Fp, flt x (.inf true) = false ∧ flt (.inf false) x = false ∧
    (fle x (.inf true) = true ↔ x = .inf true) ∧ (fle (.inf false) x = true ↔ x = .inf false)) ∧
  (∀ x y : Fp, fgt x y = flt y x ∧ fge x y = fle y x)

/-! ### The comparator's functions -/

/-- 40_comparator_ops.md R53: the rescale formula with its two constants, and that by default `u` equals `q` as a value:
they are the same but for a zero `q`, which gives +0.0; and that the sign of a zero changes no comparison. -/
def Obligations.RescaleFormula : Prop :=
  (∀ (p : Params) (v : Volts),
    rescale p v =
      fadd p.fmt (unpack p.fmt p.yLo)
        (fmul p.fmt
          (fdiv p.fmt (fsub p.fmt (unpack p.fmt v) (unpack p.fmt p.vLo))
            (fsub p.fmt (unpack p.fmt p.vHi) (unpack p.fmt p.vLo)))
          (fsub p.fmt (unpack p.fmt p.yHi) (unpack p.fmt p.yLo)))) ∧
  span Params.default = unpack .binary32 0x3FF33333#32 ∧
  ySpan Params.default = unpack .binary32 0x3F800000#32 ∧
  (∀ (v : Volts) (q : Fp),
    q = fdiv .binary32 (fsub .binary32 (unpack .binary32 v) (unpack .binary32 0x3DCCCCCD#32))
          (unpack .binary32 0x3FF33333#32) →
    rescale Params.default v = q ∨ ∃ s, q = .fin s 0 ∧ rescale Params.default v = .fin false 0) ∧
  (∀ (s t : Bool) (x : Fp),
    flt (.fin s 0) x = flt (.fin t 0) x ∧ flt x (.fin s 0) = flt x (.fin t 0) ∧
    fle (.fin s 0) x = fle (.fin t 0) x ∧ fle x (.fin s 0) = fle x (.fin t 0))

/-- 40_comparator_ops.md section 1: with the default parameters the rescale keeps order. The spec marks this as general
knowledge ("`N` is monotone non-decreasing on non-NaN inputs"). -/
def Obligations.RescaleKeepsOrder : Prop :=
  ∀ a b : Volts, fle (unpack .binary32 a) (unpack .binary32 b) = true →
    fle (rescale Params.default a) (rescale Params.default b) = true

/-- 40_comparator_ops.md section 1, "Raw-voltage form under the default parameters, for every binary32 `v`", for both
settings of `THRESH_INCLUSIVE`. The spec marks the equivalence as derived. -/
def Obligations.RawVoltageFormOfThresholds : Prop :=
  ∀ v : Volts,
    aboveHi Params.default (rescale Params.default v) = fgt (unpack .binary32 v) (unpack .binary32 0x40000000#32) ∧
    belowLo Params.default (rescale Params.default v) = flt (unpack .binary32 v) (unpack .binary32 0x3DCCCCCD#32) ∧
    aboveHi Params.inclusive (rescale Params.inclusive v) =
      fge (unpack .binary32 v) (unpack .binary32 0x40000000#32) ∧
    belowLo Params.inclusive (rescale Params.inclusive v) =
      fle (unpack .binary32 v) (unpack .binary32 0x3DCCCCCD#32)

/-- 40_comparator_ops.md section 1, the table "Special operands, under the default parameters": NaNs, infinities, zeros
and subnormals of either sign, and the extreme finite operands. -/
def Obligations.SpecialOperandsRescale : Prop :=
  (∀ v : Volts, 0x7F800000 < v.toNat % 2 ^ 31 →
    rescale Params.default v = .nan ∧
    aboveHi Params.default (rescale Params.default v) = false ∧
    belowLo Params.default (rescale Params.default v) = false) ∧
  (∀ v : Volts, v.toNat % 2 ^ 31 ≤ 0x007FFFFF →
    rescale Params.default v = unpack .binary32 0xBD579436#32 ∧
    aboveHi Params.default (rescale Params.default v) = false ∧
    belowLo Params.default (rescale Params.default v) = true) ∧
  (rescale Params.default 0x7F800000#32 = .inf false ∧
    aboveHi Params.default (.inf false) = true ∧ belowLo Params.default (.inf false) = false) ∧
  (rescale Params.default 0xFF800000#32 = .inf true ∧
    aboveHi Params.default (.inf true) = false ∧ belowLo Params.default (.inf true) = true) ∧
  (rescale Params.default 0x7F7FFFFF#32 = unpack .binary32 0x7F06BCA1#32 ∧
    aboveHi Params.default (unpack .binary32 0x7F06BCA1#32) = true ∧
    belowLo Params.default (unpack .binary32 0x7F06BCA1#32) = false) ∧
  (rescale Params.default 0xFF7FFFFF#32 = unpack .binary32 0xFF06BCA1#32 ∧
    aboveHi Params.default (unpack .binary32 0xFF06BCA1#32) = false ∧
    belowLo Params.default (unpack .binary32 0xFF06BCA1#32) = true)

/-- 40_comparator_ops.md R57: the three cases of the transition function, and that a legal parameter set never has both
threshold tests true. -/
def Obligations.TransitionFollowsThresholds : Prop :=
  (∀ (p : Params) (u : Fp), aboveHi p u = true → transition p false u = (true, true)) ∧
  (∀ (p : Params) (u : Fp), belowLo p u = true → transition p true u = (false, false)) ∧
  (∀ (p : Params) (w : Bool) (u : Fp), ¬ (w = false ∧ aboveHi p u = true) → ¬ (w = true ∧ belowLo p u = true) →
    transition p w u = (w, false)) ∧
  (∀ (p : Params) (u : Fp), p.legal = true → ¬ (aboveHi p u = true ∧ belowLo p u = true))

/-- 40_comparator_ops.md section 4 ("Dividing by `SPAN` never divides by zero for a legal parameter set"): neither span of
a legal set is a zero. -/
def Obligations.SpanIsNeverZero : Prop :=
  ∀ (p : Params) (s : Bool), p.legal = true → span p ≠ .fin s 0 ∧ ySpan p ≠ .fin s 0

/-! ### The commands -/

/-- 40_comparator_ops.md section 2, STEP: where it takes a rising edge, where it falls, and where it takes no transition;
every other field of the state is as it was. -/
def Obligations.StepCommandResult : Prop :=
  ∀ (s : State) (vin : Volts),
    (s.wasHigh = false → aboveHi s.params (rescale s.params vin) = true →
      exec (.step vin) s = .next { s with wasHigh := true, out := some { fire := true, high := false } }) ∧
    (s.wasHigh = true → belowLo s.params (rescale s.params vin) = true →
      exec (.step vin) s = .next { s with wasHigh := false, out := some { fire := false, high := true } }) ∧
    (¬ (s.wasHigh = false ∧ aboveHi s.params (rescale s.params vin) = true) →
      ¬ (s.wasHigh = true ∧ belowLo s.params (rescale s.params vin) = true) →
      exec (.step vin) s = .next { s with out := some { fire := false, high := s.wasHigh } })

/-- 40_comparator_ops.md R63, HOLD: its result and frame, that its operand bits are ignored, that any number of them hold
the state, that one between two commands is invisible, that it ends no high interval, and the rule's example. -/
def Obligations.HoldCommandResult : Prop :=
  ∀ s : State,
    exec .hold s = .next { s with out := some { fire := false, high := s.wasHigh } } ∧
    (∀ cmd : Word, cmd.getLsbD 33 = false → cmd.getLsbD 32 = false → tick cmd s = exec .hold s) ∧
    (∀ cmds : List Word, (∀ c ∈ cmds, decode c = .hold) →
      ∃ r, runCommands cmds s = .next r ∧ r.final.wasHigh = s.wasHigh ∧
        r.trace = List.replicate cmds.length { fire := false, high := s.wasHigh }) ∧
    (∀ a h b : Word, decode h = .hold →
      ∃ r q, runCommands [a, h, b] s = .next r ∧ runCommands [a, b] s = .next q ∧ r.final = q.final) ∧
    (∀ cmd : Word, decode cmd = .hold → endsInterval s.params cmd = false) ∧
    (s.wasHigh = true → tick 0x000000000#34 s = .next { s with out := some { fire := false, high := true } })

/-- 40_comparator_ops.md R64, RESET: its result and frame, that the rest of the word is ignored (`conn` = 1 included), that
it never fires, that with `RESET_VALUE` = 0 the next STEP with a high input fires again, and the rule's example. -/
def Obligations.ResetCommandResult : Prop :=
  ∀ s : State,
    exec .reset s = .next { s with wasHigh := s.params.resetValue, out := some { fire := false, high := s.wasHigh } } ∧
    (∀ cmd : Word, cmd.getLsbD 33 = true → tick cmd s = exec .reset s) ∧
    (∀ (cmd : Word) (vin : Volts), cmd.getLsbD 33 = true → s.params.resetValue = false →
      aboveHi s.params (rescale s.params vin) = true →
      ∃ r, runCommands [cmd, encode (.step vin)] s = .next r ∧ endsInterval s.params cmd = true ∧ firedAt r 1) ∧
    (s.params = Params.default → s.wasHigh = true →
      tick 0x200000000#34 s = .next { s with wasHigh := false, out := some { fire := false, high := true } })

/-- 60_exceptions.md R87: with `rst` = 1 and `conn` = 1 in one tick RESET wins; the sample is not compared. -/
def Obligations.ResetWinsOverConn : Prop :=
  ∀ (s : State) (cmd : Word), cmd.getLsbD 33 = true → cmd.getLsbD 32 = true →
    decode cmd = .reset ∧
    tick cmd s = .next { s with wasHigh := s.params.resetValue, out := some { fire := false, high := s.wasHigh } }

/-- 10_state.md section 3: a RESET sets `wasHigh` to `RESET_VALUE`, which is 0 by default. That `State.reset` holds 0 is
the model's reading of which state that is, the block after a RESET and not at power-on (log entry 12, DEDUCED). -/
def Obligations.ResetLeavesResetValue : Prop :=
  (∀ s : State, ∃ t, exec .reset s = .next t ∧ t.wasHigh = s.params.resetValue) ∧
  Params.default.resetValue = false ∧ State.reset.wasHigh = false

/-- 30_encoding.md R49: a STEP with any NaN operand is legal and runs, whatever the parameters, and its payload has no
effect: it takes no transition and does not fire. -/
def Obligations.StepOfNaNHolds : Prop :=
  (∀ (s : State) (vin : Volts), isNaN (unpack s.params.fmt vin) = true →
    (Instr.step vin).wellFormed = true ∧ decode (encode (.step vin)) = .step vin ∧
    exec (.step vin) s = .next { s with out := some { fire := false, high := s.wasHigh } }) ∧
  (∀ vin : Volts, isNaN (unpack .binary32 vin) = true ↔ 0x7F800000 < vin.toNat % 2 ^ 31)

/-- The frame of the three commands, RESET, STEP and HOLD: no command writes a parameter, a host move or the model's
counter, and every one presents its outputs, `high` being the state before (40_comparator_ops.md section 1, Outputs). That
these stand in State is the model's DESIGN CHOICE (log entries 1, 2, 4 and 5). -/
def Obligations.CommandFrame : Prop :=
  ∀ (i : Instr) (s t : State), exec i s = .next t →
    t.params = s.params ∧ t.moves = s.moves ∧ t.powerOns = s.powerOns ∧
    ∃ fire, t.out = some { fire := fire, high := s.wasHigh }

/-- 40_comparator_ops.md R65: a tick is the complete step function, for every state and every word. -/
def Obligations.TickIsCompleteStep : Prop :=
  ∀ (s : State) (cmd : Word),
    tick cmd s = .next { s with
      wasHigh := (completeStep s.params s.wasHigh cmd).1
      out := some { fire := (completeStep s.params s.wasHigh cmd).2.1
                    high := (completeStep s.params s.wasHigh cmd).2.2 } }

/-- 60_exceptions.md section 1 for commands and operands, and 70_reset_and_hazards.md "Runs and the host" ("The block never
stops itself") for steps: nothing stops the block, and there is no fault. That a step takes the host's next move from a list,
and that an empty list is a stopped clock, is the model's DESIGN CHOICE (log entry 2). -/
def Obligations.NothingStopsTheBlock : Prop :=
  (∀ s : State, ∃ t, step s = .next t) ∧ (∀ (i : Instr) (s : State), ∃ t, exec i s = .next t) ∧
  (∀ (cmd : Word) (s : State), ∃ t, tick cmd s = .next t) ∧ IsEmpty Fault

/-! ### Steps, power and elaboration -/

/-- A step whose next host move is a tick runs the decoded command (00_scope.md section 4): the state with that move taken
off the list, and nothing else around `exec`. How the host's moves stand in the state is log entry 2. -/
def Obligations.StepRunsTheDecodedCommand : Prop :=
  ∀ (s : State) (cmd : Word) (rest : List HostMove), s.moves = .tick cmd :: rest →
    step s = exec (decode cmd) { s with moves := rest }

/-- 60_exceptions.md section 2, Power states: without a clock edge the state is held, and the block resumes with the next
tick as if the clock had not stopped. The model's DESIGN CHOICES: that an empty list of moves is a stopped clock
(log entry 2), and that no output is held without a tick (log entry 5). -/
def Obligations.StoppedClockHoldsState : Prop :=
  ∀ (s : State) (rest : List HostMove),
    (s.moves = [] → step s = .next { s with out := none }) ∧
    (s.moves = .stopClock :: rest → step s = .next { s with out := none, moves := rest }) ∧
    (∀ cmd : Word, s.moves = .stopClock :: .tick cmd :: rest →
      ∃ t u, step s = .next t ∧ step t = .next u ∧ step { s with moves := .tick cmd :: rest } = .next u)

/-- 70_reset_and_hazards.md section 1, Power-on: the state bit becomes the draw, whatever it is. The model's DESIGN
CHOICES: the draw as a free value of a counter, which goes up by one (log entry 4), that no output is held then
(log entry 5), and that the move is taken off the list (log entry 2). The parameters stay. -/
def Obligations.PowerOnTakesTheDraw : Prop :=
  ∀ (s : State) (rest : List HostMove), s.moves = .powerOn :: rest →
    step s = .next { s with
      wasHigh := Config.powerOnDraw s.powerOns, out := none, moves := rest, powerOns := s.powerOns + 1 }

/-- 00_scope.md section 3: which parameter sets are legal, those with finite `V_LO` < `V_HI`, `Y_LO` < `Y_HI` and
`T_LO` < `T_HI`; elaboration answers the power-on state of a legal set, for either draw, and refuses every other set; the
state it answers meets the invariant. The model's own: that the format must fit the port (log entry 3, DESIGN CHOICE), and
that elaboration is an operation apart, which alone refuses (log entry 6, DEDUCED). -/
def Obligations.ElaborationRefusesIllegalSets : Prop :=
  (∀ p : Params, p.legal = true ↔
    (2 ≤ p.fmt.expBits ∧ 1 ≤ p.fmt.fracBits ∧ p.fmt.expBits + p.fmt.fracBits = 31) ∧
    (∃ s a t b, unpack p.fmt p.vLo = .fin s a ∧ unpack p.fmt p.vHi = .fin t b ∧
      fpValue p.fmt (.fin s a) < fpValue p.fmt (.fin t b)) ∧
    (∃ s a t b, unpack p.fmt p.yLo = .fin s a ∧ unpack p.fmt p.yHi = .fin t b ∧
      fpValue p.fmt (.fin s a) < fpValue p.fmt (.fin t b)) ∧
    (∃ s a t b, unpack p.fmt p.tLo = .fin s a ∧ unpack p.fmt p.tHi = .fin t b ∧
      fpValue p.fmt (.fin s a) < fpValue p.fmt (.fin t b))) ∧
  ∀ (p : Params) (draw : Bool),
    (p.legal = true → ∃ s, elaborate p draw = .next s ∧ s.wasHigh = draw ∧ s.params = p ∧ Inv s) ∧
    (p.legal = false → elaborate p draw = .refused .illegalParameters)

/-- The frame of a step: the parameters never change ("No program can read or write them", 00_scope.md section 3), and
without a tick or a power-on the state bit is held (60_exceptions.md section 2). The model's DESIGN CHOICES: that a step
uses up one host move (log entry 2), that outputs are there exactly after a tick (log entry 5), and that the counter moves
only at a power-on (log entry 4). -/
def Obligations.StepFrame : Prop :=
  ∀ s t : State, step s = .next t →
    t.params = s.params ∧ t.moves = s.moves.tail ∧
    ((∃ cmd, s.moves.head? = some (.tick cmd)) ↔ t.out.isSome = true) ∧
    (s.moves.head? ≠ some .powerOn → t.powerOns = s.powerOns) ∧
    ((∀ cmd, s.moves.head? ≠ some (.tick cmd)) → s.moves.head? ≠ some .powerOn → t.wasHigh = s.wasHigh)

/-- The invariant holds right after reset; that `State.reset` is that state is log entry 12 (DEDUCED). -/
def Obligations.ResetMeetsInvariant : Prop := Inv State.reset

/-- Every step, from any state that meets it, keeps the invariant: the parameters stay a legal set, and a tick that fires
took the state from 0 to 1. -/
def Obligations.StepKeepsInvariant : Prop := ∀ s t : State, Inv s → step s = .next t → Inv t

/-! ### Properties of ticks and runs -/

/-- 40_comparator_ops.md section 3 ("`fire_n` = 1 exactly when `cmd_n` is a STEP, `s_n` = 0 and `s_{n+1}` = 1."), which the
spec marks as derived. -/
def Obligations.FireIsExactlyARisingStep : Prop :=
  ∀ (cmd : Word) (s t : State), tick cmd s = .next t →
    ∃ o, t.out = some o ∧ o.high = s.wasHigh ∧
      (o.fire = true ↔ (∃ v, decode cmd = .step v) ∧ s.wasHigh = false ∧ t.wasHigh = true)

/-- 40_comparator_ops.md section 1, the hysteresis band, which the spec marks as derived: an operand for which neither test
holds leaves the state, and with the defaults those are exactly `0.0 ≤ u ≤ 1.0` and NaN. -/
def Obligations.HysteresisBandKeepsState : Prop :=
  (∀ (s : State) (vin : Volts), aboveHi s.params (rescale s.params vin) = false →
    belowLo s.params (rescale s.params vin) = false →
    exec (.step vin) s = .next { s with out := some { fire := false, high := s.wasHigh } }) ∧
  (∀ u : Fp, (aboveHi Params.default u = false ∧ belowLo Params.default u = false) ↔
    (isNaN u = true ∨
      (fle (unpack .binary32 0x00000000#32) u = true ∧ fle u (unpack .binary32 0x3F800000#32) = true)))

/-- 20_memory.md section 1, Widths and atomicity: presenting a command again leaves the state as it was, and does not fire.
The spec marks it as derived; a STEP needs a legal parameter set. -/
def Obligations.RepeatedCommandIsIdempotent : Prop :=
  ∀ (i : Instr) (s t : State), s.params.legal = true → exec i s = .next t →
    ∃ u, exec i t = .next u ∧ u.wasHigh = t.wasHigh ∧ u.out = some { fire := false, high := t.wasHigh }

/-- 40_comparator_ops.md section 3, Repetition, which the spec marks as derived: a second STEP with the same operand, with
only HOLD ticks between, takes no transition and does not fire. -/
def Obligations.RepeatedStepDoesNotFire : Prop :=
  ∀ (s : State) (vin : Volts) (n : Nat), s.params.legal = true →
    ∃ r o, runCommands (encode (.step vin) :: (List.replicate n (encode .hold) ++ [encode (.step vin)])) s = .next r ∧
      r.trace[n + 1]? = some o ∧ o.fire = false ∧ r.final.wasHigh = o.high

/-- 70_reset_and_hazards.md "Runs and the host": a run answers a trace and an end state, and they are those of the complete
step function folded over the commands; the parameters are untouched. That the run's commands stand as a list of moves, which
the run uses up, is log entry 2 (DESIGN CHOICE); the counter is log entry 4. -/
def Obligations.RunIsFoldOfCompleteStep : Prop :=
  ∀ (s : State) (cmds : List Word), ∃ r, runCommands cmds s = .next r ∧
    (r.trace, r.final.wasHigh) = foldCompleteStep s.params s.wasHigh cmds ∧
    r.final.params = s.params ∧ r.final.moves = [] ∧ r.final.powerOns = s.powerOns

/-- 40_comparator_ops.md section 1, Outputs, and 70_reset_and_hazards.md section 2: `high` in tick n is the state the first
n commands left. -/
def Obligations.HighShowsStateBeforeTick : Prop :=
  ∀ (s : State) (cmds : List Word) (n : Nat), n < cmds.length →
    ∃ r q o, runCommands cmds s = .next r ∧ runCommands (cmds.take n) s = .next q ∧
      r.trace[n]? = some o ∧ o.high = q.final.wasHigh

/-- 40_comparator_ops.md section 3, "At most one edge per contiguous high interval", which the spec marks as derived:
between two ticks that fire stands a RESET or a falling STEP; with `RESET_VALUE` = 1, a falling STEP. -/
def Obligations.OneEdgePerHighInterval : Prop :=
  ∀ (s : State) (cmds : List Word) (r : RunRecord), runCommands cmds s = .next r →
    ∀ i j : Nat, i < j → firedAt r i → firedAt r j →
      ∃ k cmd, i < k ∧ k < j ∧ cmds[k]? = some cmd ∧ endsInterval s.params cmd = true ∧
        (s.params.resetValue = true → isFallingStep s.params cmd = true)

/-- The step lemma of "At most one edge per contiguous high interval" (40_comparator_ops.md section 3, which the spec marks
as derived): in a high state a step that is no power-on, no falling STEP and no RESET to 0 keeps the state high and does not
fire. The moves in State are log entry 2 (DESIGN CHOICE). -/
def Obligations.HighIntervalContinues : Prop :=
  ∀ s t : State, s.wasHigh = true → s.moves.head? ≠ some .powerOn →
    (∀ cmd, s.moves.head? = some (.tick cmd) →
      cannotFall s.params cmd = true ∨ (decode cmd = .reset ∧ s.params.resetValue = true)) →
    step s = .next t →
    t.wasHigh = true ∧ ∀ o, t.out = some o → o.fire = false

/-- 10_state.md section 4 and 70_reset_and_hazards.md section 2, Reconnection: taking every HOLD out of a run changes
neither the end state nor the outputs of the other ticks. -/
def Obligations.HoldsAreInvisible : Prop :=
  ∀ (s : State) (cmds : List Word),
    ∃ r q, runCommands cmds s = .next r ∧ runCommands (cmds.filter isConnected) s = .next q ∧
      r.final.wasHigh = q.final.wasHigh ∧ connectedOutputs cmds r.trace = q.trace

/-! ### Reset and power-on -/

/-- 70_reset_and_hazards.md section 1, Boot requirement: after a first RESET nothing of a run but that tick's `high` depends
on the power-on draw. -/
def Obligations.BootResetRemovesTheDraw : Prop :=
  ∀ (p : Params) (cmd : Word) (cmds : List Word), decode cmd = .reset →
    ∃ r0 r1, runCommands (cmd :: cmds) (powerOnState p false) = .next r0 ∧
      runCommands (cmd :: cmds) (powerOnState p true) = .next r1 ∧
      fires r0 = fires r1 ∧ r0.trace.tail = r1.trace.tail ∧ r0.final.wasHigh = r1.final.wasHigh

/-- 70_reset_and_hazards.md section 1, Power-on: what the draw decides of a STEP whose operand satisfies H. From draw 0 it
fires, and is the run's first edge, where every command before it is a HOLD or a STEP that does not satisfy H. From draw 1
no tick fires where every command before it is a HOLD or a STEP that does not satisfy L. With no command before it, both
hold. The power-on state with its draw as an argument is log entry 4 (DESIGN CHOICE). -/
def Obligations.DrawDecidesTheFirstEdge : Prop :=
  ∀ (p : Params) (before : List Word) (vin : Volts), aboveHi p (rescale p vin) = true →
    ((∀ c ∈ before, cannotRise p c = true) →
      ∃ r, runCommands (before ++ [encode (.step vin)]) (powerOnState p false) = .next r ∧
        fires r = List.replicate before.length false ++ [true]) ∧
    ((∀ c ∈ before, cannotFall p c = true) →
      ∃ r, runCommands (before ++ [encode (.step vin)]) (powerOnState p true) = .next r ∧
        fires r = List.replicate (before.length + 1) false)

/-- 70_reset_and_hazards.md section 1, First STEP after reset, which the spec marks as derived: whatever HOLDs stand between
the RESET and it, with `RESET_VALUE` = 0 it fires exactly if its operand satisfies H, and with `RESET_VALUE` = 1 it does not
fire. -/
def Obligations.FirstStepAfterReset : Prop :=
  ∀ (s : State) (cmd : Word) (holds : List Word) (vin : Volts), decode cmd = .reset →
    (∀ c ∈ holds, decode c = .hold) →
    ∃ r, runCommands (cmd :: (holds ++ [encode (.step vin)])) s = .next r ∧
      (s.params.resetValue = false →
        (firedAt r (holds.length + 1) ↔ aboveHi s.params (rescale s.params vin) = true)) ∧
      (s.params.resetValue = true → ¬ firedAt r (holds.length + 1))

/-- 70_reset_and_hazards.md section 1: holding `rst` = 1 for several ticks has the same effect as one tick, and the next
tick shows `high` = `RESET_VALUE`. -/
def Obligations.HeldResetIsOneReset : Prop :=
  ∀ (s : State) (resets : List Word) (cmd : Word), resets ≠ [] → (∀ c ∈ resets, decode c = .reset) →
    ∃ r q o, runCommands (resets ++ [cmd]) s = .next r ∧ runCommands [encode .reset, cmd] s = .next q ∧
      r.final = q.final ∧ r.trace[resets.length]? = some o ∧ o.high = s.params.resetValue

/-! ### The tempo client's instances -/

/-- 41_instances_and_clients.md: a command to one instance is a tick of that instance and never changes another. The
model's form of the six instances is log entry 14 (DEDUCED), here and in the next two statements. -/
def Obligations.InstancesShareNoState : Prop :=
  ∀ (b : Bank) (i : Inst) (cmd : Word),
    ∃ b', bankTick b i cmd = .next b' ∧ tick cmd (bankGet b i) = .next (bankGet b' i) ∧
      ∀ j, j ≠ i → bankGet b' j = bankGet b j

/-- 41_instances_and_clients.md, which the spec marks as derived: the order in which the client steps its instances, one
command to each, cannot be seen in any of them. -/
def Obligations.InstanceOrderIsUnobservable : Prop :=
  ∀ (b : Bank) (l l' : List (Inst × Word)), l.Perm l' → (l.map Prod.fst).Nodup → bankTicks l b = bankTicks l' b

/-- 41_instances_and_clients.md: in a sample every instance takes one command, STEP with the port's voltage where the port
is connected and HOLD where it is not; at power-on all six have the default parameters. -/
def Obligations.ClientSampleStepsEveryInstance : Prop :=
  (∀ q : Port, decode (portCommand q) = if q.connected then .step q.volts else .hold) ∧
  (∀ (ports : Inst → Port) (b : Bank), ∃ b', bankSample ports b = .next b' ∧
    ∀ i, tick (portCommand (ports i)) (bankGet b i) = .next (bankGet b' i)) ∧
  (∀ (d3 d2 d1 ds dr dp : Bool) (i : Inst), (bankGet (bankPowerOn d3 d2 d1 ds dr dp) i).params = Params.default)
end

