-- ==== Sys2Proof/Laws/Float.lean ====
section
/-! SUPPORT. Laws of the floating-point primitives: rounding to nearest even is squeezed between whole numbers, monotone,
and exact on the format's own values; an operand word's finite value is one of them. -/

namespace Sys2Proof.Machine

/-! ### `roundHalfEven` -/

theorem le_roundHalfEven {c n d : Nat} (hd : 0 < d) (h : c * d ≤ n) : c ≤ roundHalfEven n d := by
  have hq : c ≤ n / d := (Nat.le_div_iff_mul_le hd).2 h
  unfold roundHalfEven
  grind

theorem roundHalfEven_le {c n d : Nat} (hd : 0 < d) (h : n ≤ c * d) : roundHalfEven n d ≤ c := by
  have hdm := Nat.div_add_mod n d
  have hr := Nat.mod_lt n hd
  obtain hlt | heq | hgt := Nat.lt_trichotomy (n / d) c
  · unfold roundHalfEven; grind
  · have h0 : n % d = 0 := by subst heq; rw [Nat.mul_comm] at h; omega
    unfold roundHalfEven
    rw [h0, if_pos (by simpa using hd)]
    exact heq.le
  · have : (c + 1) * d ≤ n := (Nat.le_div_iff_mul_le hd).1 hgt
    rw [Nat.add_mul] at this
    omega

/-- Rounding a whole number gives it back. -/
theorem roundHalfEven_exact {c d : Nat} (hd : 0 < d) : roundHalfEven (c * d) d = c :=
  Nat.le_antisymm (roundHalfEven_le hd le_rfl) (le_roundHalfEven hd le_rfl)

/-- Rounding keeps the order of fractions over one denominator. -/
theorem roundHalfEven_mono {a b d : Nat} (hd : 0 < d) (h : a ≤ b) : roundHalfEven a d ≤ roundHalfEven b d := by
  obtain hlt | heq := (Nat.div_le_div_right (c := d) h).lt_or_eq
  · have hb := le_roundHalfEven hd (Nat.div_mul_le_self b d)
    have ha : roundHalfEven a d ≤ a / d + 1 :=
      roundHalfEven_le hd (by have := Nat.lt_div_mul_add (a := a) hd; rw [Nat.add_mul]; omega)
    omega
  · have hr : a % d ≤ b % d := by
      have h1 := Nat.div_add_mod a d
      have h2 := Nat.div_add_mod b d
      rw [heq] at h1
      omega
    unfold roundHalfEven
    rw [heq]
    grind

/-- Rounding moves a fraction by at most half. -/
theorem roundHalfEven_near {n d : Nat} (hd : 0 < d) :
    2 * n ≤ (2 * roundHalfEven n d + 1) * d ∧ (2 * roundHalfEven n d) * d ≤ 2 * n + d := by
  have h1 := Nat.div_add_mod n d
  have h2 := Nat.mod_lt n hd
  have e : d * (n / d) = (n / d) * d := Nat.mul_comm _ _
  have key : roundHalfEven n d = n / d ∧ 2 * (n % d) ≤ d ∨ roundHalfEven n d = n / d + 1 ∧ d ≤ 2 * (n % d) := by
    unfold roundHalfEven; grind
  obtain ⟨hk, hb⟩ | ⟨hk, hb⟩ := key <;> rw [hk] <;> constructor <;> simp only [Nat.mul_assoc, Nat.mul_add, Nat.add_mul] <;> omega

/-! ### Magnitudes of the format -/

theorem two_pow_gridExp_le {f : Format} {q : Nat} (hq : q ≠ 0) : 2 ^ gridExp f q ≤ q :=
  (Nat.pow_le_pow_right (by decide) (Nat.sub_le _ _)).trans (Nat.log2_self_le hq)

theorem log2_mono {a b : Nat} (h : a ≤ b) : a.log2 ≤ b.log2 := by
  by_cases ha : a = 0
  · simp [ha]
  · exact (Nat.le_log2 (by omega)).2 ((Nat.log2_self_le ha).trans h)

theorem gridExp_mono {f : Format} {a b : Nat} (h : a ≤ b) : gridExp f a ≤ gridExp f b :=
  Nat.sub_le_sub_right (log2_mono h) _

/-- Every magnitude up to the end of its binade: the rounded magnitude does not pass it. -/
theorem roundMag_le_binade {f : Format} {n d : Nat} (hd : 0 < d) :
    roundMag f n d ≤ 2 ^ (gridExp f (n / d) + f.fracBits + 1) := by
  set k := gridExp f (n / d) with hk
  have hlog : (n / d).log2 ≤ k + f.fracBits := by rw [hk]; unfold gridExp; omega
  have hq : n / d < 2 ^ (k + f.fracBits + 1) :=
    lt_of_lt_of_le Nat.lt_log2_self (Nat.pow_le_pow_right (by decide) (by omega))
  have hn : n ≤ 2 ^ (f.fracBits + 1) * (d * 2 ^ k) := by
    have h1 : n < (n / d + 1) * d := by rw [Nat.add_mul, Nat.one_mul]; exact Nat.lt_div_mul_add hd
    have h2 : (n / d + 1) * d ≤ 2 ^ (k + f.fracBits + 1) * d := Nat.mul_le_mul_right _ hq
    have h3 : 2 ^ (k + f.fracBits + 1) * d = 2 ^ (f.fracBits + 1) * (d * 2 ^ k) := by
      rw [show k + f.fracBits + 1 = f.fracBits + 1 + k by omega, Nat.pow_add]; ring
    omega
  have hr := roundHalfEven_le (Nat.mul_pos hd (Nat.two_pow_pos k)) hn
  unfold roundMag
  rw [← hk, show k + f.fracBits + 1 = f.fracBits + 1 + k by omega, Nat.pow_add]
  exact Nat.mul_le_mul_right _ hr

/-- A magnitude past the first normal binade rounds to no less than its binade's start. -/
theorem binade_le_roundMag {f : Format} {n d : Nat} (hd : 0 < d) (hk : 0 < gridExp f (n / d)) :
    2 ^ (gridExp f (n / d) + f.fracBits) ≤ roundMag f n d := by
  set k := gridExp f (n / d) with hkd
  have hlog : (n / d).log2 = k + f.fracBits := by
    have h : k = (n / d).log2 - f.fracBits := hkd
    omega
  have hq0 : n / d ≠ 0 := by
    intro h0
    rw [h0, Nat.log2_zero] at hlog
    omega
  have hq : 2 ^ (k + f.fracBits) ≤ n / d := by rw [← hlog]; exact Nat.log2_self_le hq0
  have hn : 2 ^ f.fracBits * (d * 2 ^ k) ≤ n := by
    have h1 : 2 ^ (k + f.fracBits) * d ≤ n := (Nat.le_div_iff_mul_le hd).1 hq
    rw [Nat.pow_add] at h1
    calc 2 ^ f.fracBits * (d * 2 ^ k) = 2 ^ k * 2 ^ f.fracBits * d := by ring
      _ ≤ n := h1
  have hr := le_roundHalfEven (Nat.mul_pos hd (Nat.two_pow_pos k)) hn
  unfold roundMag
  rw [← hkd, show k + f.fracBits = f.fracBits + k by omega, Nat.pow_add]
  exact Nat.mul_le_mul_right _ hr

/-- Rounding to the format keeps the order of fractions over one denominator. -/
theorem roundMag_mono {f : Format} {a b d : Nat} (hd : 0 < d) (h : a ≤ b) : roundMag f a d ≤ roundMag f b d := by
  obtain hlt | heq := (gridExp_mono (f := f) (Nat.div_le_div_right (c := d) h)).lt_or_eq
  · calc roundMag f a d ≤ 2 ^ (gridExp f (a / d) + f.fracBits + 1) := roundMag_le_binade hd
      _ ≤ 2 ^ (gridExp f (b / d) + f.fracBits) := Nat.pow_le_pow_right (by decide) (by omega)
      _ ≤ roundMag f b d := binade_le_roundMag hd (by omega)
  · unfold roundMag
    rw [heq]
    exact Nat.mul_le_mul_right _ (roundHalfEven_mono (Nat.mul_pos hd (Nat.two_pow_pos _)) h)

/-- The format's own magnitudes lie on the grid around them. -/
theorem gridExp_dvd {f : Format} {m : Nat} (h : onGrid f m) : 2 ^ gridExp f m ∣ m := by
  obtain ⟨c, j, hc, rfl⟩ := h
  refine dvd_mul_of_dvd_right (Nat.pow_dvd_pow 2 ?_) c
  by_cases hc0 : c = 0
  · simp [hc0, gridExp]
  · have h1 : c * 2 ^ j < 2 ^ (f.fracBits + 1 + j) := by
      rw [Nat.pow_add]; exact Nat.mul_lt_mul_of_pos_right hc (Nat.two_pow_pos j)
    have h2 := (Nat.log2_lt (mul_ne_zero hc0 (Nat.two_pow_pos j).ne')).2 h1
    unfold gridExp
    omega

/-- Rounding gives the format's own magnitudes back. -/
theorem roundMag_exact {f : Format} {m d : Nat} (hd : 0 < d) (h : onGrid f m) : roundMag f (m * d) d = m := by
  obtain ⟨c, hc⟩ := gridExp_dvd h
  unfold roundMag
  rw [Nat.mul_div_cancel m hd]
  generalize gridExp f m = k at hc
  rw [show m * d = c * (d * 2 ^ k) by rw [hc]; ring, roundHalfEven_exact (Nat.mul_pos hd (Nat.two_pow_pos k)), hc,
    Nat.mul_comm]

/-- A rounded magnitude is one of the format's own. -/
theorem roundMag_onGrid (f : Format) {n d : Nat} (hd : 0 < d) : onGrid f (roundMag f n d) := by
  have hb := roundMag_le_binade (f := f) (n := n) hd
  unfold roundMag at *
  generalize gridExp f (n / d) = k at *
  generalize roundHalfEven n (d * 2 ^ k) = c at *
  have hc : c ≤ 2 ^ (f.fracBits + 1) := by
    rw [show k + f.fracBits + 1 = f.fracBits + 1 + k by omega, Nat.pow_add] at hb
    exact Nat.le_of_mul_le_mul_right hb (Nat.two_pow_pos k)
  obtain hlt | rfl := hc.lt_or_eq
  · exact ⟨c, k, hlt, rfl⟩
  · exact ⟨1, f.fracBits + 1 + k, Nat.one_lt_two_pow (by omega), by rw [Nat.pow_add (2 : Nat) (f.fracBits + 1) k, Nat.one_mul]⟩

/-- A whole magnitude other than 0 does not round to 0. -/
theorem roundMag_ne_zero {f : Format} {n : Nat} (hn : n ≠ 0) : roundMag f n 1 ≠ 0 := by
  have h : 1 ≤ roundHalfEven n (1 * 2 ^ gridExp f (n / 1)) :=
    le_roundHalfEven (by simp) (by simpa using two_pow_gridExp_le hn)
  exact (Nat.mul_pos h (Nat.two_pow_pos _)).ne'

/-! ### `roundTo` and `unpack` -/

/-- Rounding to the format ends in a finite value of the sign or an infinity of the sign. -/
theorem roundTo_cases (f : Format) (neg : Bool) (n d : Nat) :
    ((roundMag f n d).log2 < overflowLog f ∧ roundTo f neg n d = .fin neg (roundMag f n d)) ∨
    (overflowLog f ≤ (roundMag f n d).log2 ∧ roundTo f neg n d = .inf neg) := by
  unfold roundTo
  obtain h | h := Nat.lt_or_ge (roundMag f n d).log2 (overflowLog f)
  · exact .inl ⟨h, if_pos h⟩
  · exact .inr ⟨h, if_neg (by omega)⟩

/-- The format's own finite values round to themselves. -/
theorem roundTo_exact {f : Format} {neg : Bool} {m d : Nat} (hd : 0 < d) (h : onGrid f m)
    (hm : m.log2 < overflowLog f) : roundTo f neg (m * d) d = .fin neg m := by
  have e := roundMag_exact hd h
  unfold roundTo
  simp only [e, if_pos hm]

/-- What an operand word can stand for: a NaN, an infinity, or a finite value of the format. -/
theorem unpack_cases {f : Format} (hf : fitsPort f = true) (b : Volts) :
    unpack f b = .nan ∨ (∃ s, unpack f b = .inf s) ∨
    (∃ s m, unpack f b = .fin s m ∧ onGrid f m ∧ m.log2 < overflowLog f) := by
  simp only [fitsPort, Bool.and_eq_true, decide_eq_true_eq] at hf
  obtain ⟨⟨he, hfr⟩, -⟩ := hf
  have h4 : 4 ≤ 2 ^ f.expBits := by
    calc 4 = 2 ^ 2 := rfl
      _ ≤ 2 ^ f.expBits := Nat.pow_le_pow_right (by decide) he
  have hm : fracField f b < 2 ^ f.fracBits := Nat.mod_lt _ (Nat.two_pow_pos _)
  have hee : expField f b < 2 ^ f.expBits := Nat.mod_lt _ (Nat.two_pow_pos _)
  have h2 : 2 ^ (f.fracBits + 1) = 2 * 2 ^ f.fracBits := by rw [Nat.pow_succ]; omega
  unfold unpack
  split
  · split
    · exact .inr (.inl ⟨_, rfl⟩)
    · exact .inl rfl
  · split
    · refine .inr (.inr ⟨_, _, rfl, ⟨fracField f b, 0, by omega, by simp⟩, ?_⟩)
      by_cases h0 : fracField f b = 0
      · simp only [h0, Nat.log2_zero, overflowLog]; omega
      · have := (Nat.log2_lt h0).2 hm
        simp only [overflowLog]
        omega
    · refine .inr (.inr ⟨_, _, rfl, ⟨2 ^ f.fracBits + fracField f b, expField f b - 1, by omega, rfl⟩, ?_⟩)
      have hpos : (2 ^ f.fracBits + fracField f b) * 2 ^ (expField f b - 1) ≠ 0 :=
        mul_ne_zero (by have := Nat.two_pow_pos f.fracBits; omega) (Nat.two_pow_pos _).ne'
      have hlt : (2 ^ f.fracBits + fracField f b) * 2 ^ (expField f b - 1)
          < 2 ^ (f.fracBits + 1 + (expField f b - 1)) := by
        rw [Nat.pow_add]
        exact Nat.mul_lt_mul_of_pos_right (by omega) (Nat.two_pow_pos _)
      have := (Nat.log2_lt hpos).2 hlt
      simp only [overflowLog]
      omega

/-- Zero rounds to a zero of the sign. -/
theorem roundTo_zero {f : Format} (hf : fitsPort f = true) {neg : Bool} {d : Nat} (hd : 0 < d) :
    roundTo f neg 0 d = .fin neg 0 := by
  simp only [fitsPort, Bool.and_eq_true, decide_eq_true_eq] at hf
  have h : 0 < overflowLog f := by
    have : 2 ^ 1 ≤ 2 ^ f.expBits := Nat.pow_le_pow_right (by decide) (by omega)
    unfold overflowLog
    omega
  have e := roundTo_exact (f := f) (neg := neg) (m := 0) hd ⟨0, 0, Nat.two_pow_pos _, rfl⟩ (by simpa using h)
  rwa [Nat.zero_mul] at e

/-- Rounding a fraction depends on the number it is, not on its terms. -/
theorem roundHalfEven_scale {c n d : Nat} (hc : 0 < c) : roundHalfEven (c * n) (c * d) = roundHalfEven n d := by
  have h1 : (2 * (c * (n % d)) < c * d) ↔ (2 * (n % d) < d) := by
    rw [Nat.mul_left_comm]; exact Nat.mul_lt_mul_left hc
  have h2 : (c * d < 2 * (c * (n % d))) ↔ (d < 2 * (n % d)) := by
    rw [Nat.mul_left_comm 2 c]; exact Nat.mul_lt_mul_left hc
  unfold roundHalfEven
  rw [Nat.mul_div_mul_left n d hc, Nat.mul_mod_mul_left]
  simp only [h1, h2]

/-- Rounding to the format depends on the number a fraction is, not on its terms. -/
theorem roundTo_scale {f : Format} {neg : Bool} {c n d : Nat} (hc : 0 < c) :
    roundTo f neg (c * n) (c * d) = roundTo f neg n d := by
  have e : roundMag f (c * n) (c * d) = roundMag f n d := by
    unfold roundMag
    rw [Nat.mul_div_mul_left n d hc, Nat.mul_assoc, roundHalfEven_scale hc]
  unfold roundTo
  rw [e]

/-- Equal fractions round alike. -/
theorem roundTo_congr {f : Format} {neg : Bool} {a b c d : Nat} (hb : 0 < b) (hd : 0 < d) (h : a * d = c * b) :
    roundTo f neg a b = roundTo f neg c d := by
  rw [← roundTo_scale hd, ← roundTo_scale (n := c) hb, Nat.mul_comm d a, Nat.mul_comm b c, h, Nat.mul_comm d b]

/-- Rounding a real number is rounding any fraction of units that its magnitude is. -/
theorem roundReal_eq {f : Format} {neg : Bool} {x : ℚ} {n d : Nat} (hd : 0 < d)
    (h : |x| * 2 ^ unitShift f = (n : ℚ) / d) : roundReal f neg x = roundTo f neg n d := by
  refine roundTo_congr x.den_pos hd ?_
  have hx : |x| = (x.num.natAbs : ℚ) / x.den := by
    conv_lhs => rw [← Rat.num_div_den x]
    rw [abs_div, Nat.abs_cast, Nat.cast_natAbs, Int.cast_abs]
  have hden : (x.den : ℚ) ≠ 0 := by exact_mod_cast x.den_pos.ne'
  have hd' : (d : ℚ) ≠ 0 := by exact_mod_cast hd.ne'
  rw [hx] at h
  field_simp at h
  have h' : (x.num.natAbs : ℚ) * 2 ^ unitShift f * d = n * x.den := by linarith
  exact_mod_cast h'

/-! ### Comparisons -/

theorem isNaN_iff {a : Fp} : isNaN a = true ↔ a = .nan := by cases a <;> simp [isNaN]

/-- Of two values that are not NaN, the first is below the second exactly when the second is not at or below the
first. -/
theorem flt_eq_not_fle {a b : Fp} (ha : isNaN a = false) (hb : isNaN b = false) : flt a b = !fle b a := by
  cases a with
  | nan => simp [isNaN] at ha
  | inf s => cases b with
    | nan => simp [isNaN] at hb
    | inf t => cases s <;> cases t <;> rfl
    | fin t n => cases s <;> rfl
  | fin s m => cases b with
    | nan => simp [isNaN] at hb
    | inf t => cases t <;> rfl
    | fin t n =>
      change decide (signedMag s m < signedMag t n) = !decide (signedMag t n ≤ signedMag s m)
      by_cases h : signedMag t n ≤ signedMag s m
      · rw [decide_eq_true h, decide_eq_false (not_lt.2 h)]; rfl
      · rw [decide_eq_false h, decide_eq_true (not_le.1 h)]; rfl

/-- A comparison with a NaN operand is false. -/
theorem fle_nan (a : Fp) : fle a .nan = false := by cases a <;> rfl
theorem flt_nan (a : Fp) : flt a .nan = false := by cases a <;> rfl

/-- `≤` is transitive. -/
theorem fle_trans {a b c : Fp} (h1 : fle a b = true) (h2 : fle b c = true) : fle a c = true := by
  cases a <;> cases b <;> cases c <;> simp_all [fle] <;> first | omega | aesop

/-! ### Monotony of the operations -/

/-- Rounding keeps the order of positive values. -/
theorem roundTo_mono_pos {f : Format} {a b d : Nat} (hd : 0 < d) (h : a ≤ b) :
    fle (roundTo f false a d) (roundTo f false b d) = true := by
  have hm := roundMag_mono (f := f) hd h
  have hl := log2_mono hm
  obtain ⟨h1, e1⟩ | ⟨h1, e1⟩ := roundTo_cases f false a d <;>
    obtain ⟨h2, e2⟩ | ⟨h2, e2⟩ := roundTo_cases f false b d <;>
    rw [e1, e2] <;> simp [fle, signedMag, hm]
  omega

/-- Rounding keeps the order of negative values. -/
theorem roundTo_mono_neg {f : Format} {a b d : Nat} (hd : 0 < d) (h : a ≤ b) :
    fle (roundTo f true b d) (roundTo f true a d) = true := by
  have hm := roundMag_mono (f := f) hd h
  have hl := log2_mono hm
  obtain ⟨h1, e1⟩ | ⟨h1, e1⟩ := roundTo_cases f true a d <;>
    obtain ⟨h2, e2⟩ | ⟨h2, e2⟩ := roundTo_cases f true b d <;>
    rw [e1, e2] <;> simp [fle, signedMag, hm]
  omega

/-- A rounded negative value is at or below a rounded positive one. -/
theorem roundTo_neg_le_pos (f : Format) (a b d : Nat) : fle (roundTo f true a d) (roundTo f false b d) = true := by
  obtain ⟨_, e1⟩ | ⟨_, e1⟩ := roundTo_cases f true a d <;>
    obtain ⟨_, e2⟩ | ⟨_, e2⟩ := roundTo_cases f false b d <;>
    rw [e1, e2] <;> simp [fle, signedMag]

/-- A sum's rounding keeps the order of exact sums, whatever the signs of exact zeros. -/
theorem roundSum_mono {f : Format} {s t : Bool} {y z : Int} (h : y ≤ z) :
    fle (roundSum f s y) (roundSum f t z) = true := by
  have hz : ∀ r : Bool, signedMag r 0 = 0 := by intro r; cases r <;> rfl
  have hzero : ∀ r : Bool, roundTo f r 0 1 = .fin r 0 ∨ roundTo f r 0 1 = .inf r := by
    intro r
    have e : roundMag f 0 1 = 0 := by simp [roundMag, roundHalfEven]
    obtain ⟨_, e1⟩ | ⟨_, e1⟩ := roundTo_cases f r 0 1
    · rw [e] at e1; exact .inl e1
    · exact .inr e1
  have key : ∀ (r : Bool) (n : Nat), fle (.fin r 0) (roundTo f false n 1) = true ∧
      fle (roundTo f true n 1) (.fin r 0) = true := by
    intro r n
    constructor
    · obtain ⟨_, e1⟩ | ⟨_, e1⟩ := roundTo_cases f false n 1 <;> rw [e1] <;> simp [fle, hz]
      simp [signedMag]
    · obtain ⟨_, e1⟩ | ⟨_, e1⟩ := roundTo_cases f true n 1 <;> rw [e1] <;> simp [fle, hz]
      simp [signedMag]
  unfold roundSum
  by_cases hy : y = 0 <;> by_cases hw : z = 0
  · simp [hy, hw, fle, hz]
  · rw [if_pos hy, if_neg hw, decide_eq_false (by omega)]; exact (key _ _).1
  · rw [if_neg hy, if_pos hw, decide_eq_true (by omega)]; exact (key _ _).2
  · rw [if_neg hy, if_neg hw]
    by_cases hy0 : y < 0 <;> by_cases hz0 : z < 0
    · rw [decide_eq_true hy0, decide_eq_true hz0]; exact roundTo_mono_neg (by decide) (by omega)
    · rw [decide_eq_true hy0, decide_eq_false hz0]; exact roundTo_neg_le_pos _ _ _ _
    · omega
    · rw [decide_eq_false hy0, decide_eq_false hz0]; exact roundTo_mono_pos (by decide) (by omega)

/-- Adding one finite value to two keeps their order. -/
theorem fadd_mono {f : Format} {a b : Fp} {t : Bool} {k : Nat} (h : fle a b = true) :
    fle (fadd f a (.fin t k)) (fadd f b (.fin t k)) = true := by
  have hinf : ∀ (s : Bool) (z : Int), (∃ r m, roundSum f s z = .fin r m) ∨ ∃ r, roundSum f s z = .inf r := by
    intro s z
    unfold roundSum
    split
    · exact .inl ⟨_, _, rfl⟩
    · obtain ⟨_, e⟩ | ⟨_, e⟩ := roundTo_cases f (decide (z < 0)) z.natAbs 1
      · exact .inl ⟨_, _, e⟩
      · exact .inr ⟨_, e⟩
  cases a with
  | nan => simp [fle] at h
  | inf s => cases b with
    | nan => simp [fle] at h
    | inf r => exact h
    | fin r n =>
      have hs : s = true := h
      obtain ⟨_, _, e⟩ | ⟨_, e⟩ := hinf (r && t) (signedMag r n + signedMag t k) <;> simp [fadd, e, hs, fle]
  | fin s m => cases b with
    | nan => simp [fle] at h
    | inf r =>
      have hr : r = false := by simpa [fle] using h
      obtain ⟨_, _, e⟩ | ⟨_, e⟩ := hinf (s && t) (signedMag s m + signedMag t k) <;> simp [fadd, e, hr, fle]
    | fin r n =>
      have hle : signedMag s m ≤ signedMag r n := by simpa [fle] using h
      exact roundSum_mono (by omega)

/-- Dividing two values by one finite positive value keeps their order. -/
theorem fdiv_mono {f : Format} (hf : fitsPort f = true) {a b : Fp} {k : Nat} (hk : 0 < k) (h : fle a b = true) :
    fle (fdiv f a (.fin false k)) (fdiv f b (.fin false k)) = true := by
  have hk0 : k ≠ 0 := by omega
  cases a with
  | nan => simp [fle] at h
  | inf s => cases b with
    | nan => simp [fle] at h
    | inf r => simpa [fdiv] using h
    | fin r n =>
      have hs : s = true := h
      obtain ⟨_, e⟩ | ⟨_, e⟩ := roundTo_cases f r (n * 2 ^ unitShift f) k <;> simp [fdiv, hk0, e, hs, fle]
  | fin s m => cases b with
    | nan => simp [fle] at h
    | inf r =>
      have hr : r = false := by simpa [fle] using h
      obtain ⟨_, e⟩ | ⟨_, e⟩ := roundTo_cases f s (m * 2 ^ unitShift f) k <;> simp [fdiv, hk0, e, hr, fle]
    | fin r n =>
      have hle : signedMag s m ≤ signedMag r n := by simpa [fle] using h
      simp only [fdiv, if_neg hk0, Bool.xor_false]
      cases s <;> cases r <;> simp only [signedMag, if_true, if_false, Bool.false_eq_true] at hle
      · exact roundTo_mono_pos hk (Nat.mul_le_mul_right _ (by omega))
      · have hm : m = 0 := by omega
        have hn : n = 0 := by omega
        subst hm hn
        rw [Nat.zero_mul, roundTo_zero hf hk, roundTo_zero hf hk]
        rfl
      · exact roundTo_neg_le_pos _ _ _ _
      · exact roundTo_mono_neg hk (Nat.mul_le_mul_right _ (by omega))

end Sys2Proof.Machine
end

