-- ==== Sys2Proof/Laws/PerInstr.lean ====
section
/-! SUPPORT. The per-instruction family `CanonicalWord`: a command's canonical word is its opcode row's match bits plus
the operand, so every ignored bit is 0 (30_encoding.md R42 to R44, R51). -/

namespace Sys2Proof.Laws.CanonicalWord

/-- The operand of a command, in the low 32 bits of a word. -/
def operandBits : Instr → Word
  | .reset => 0#34
  | .step vin => vin.setWidth 34
  | .hold => 0#34

/-- The match bits of a command's row in spec/opcode_table.json. -/
def rowMatch : Instr → Word
  | .reset => 0x200000000#34
  | .step _ => 0x100000000#34
  | .hold => 0x000000000#34

/-- The canonical word is the row's match bits with the operand, and nothing else. -/
def Statement (i : Instr) : Prop := encode i = rowMatch i ||| operandBits i

theorem reset : Statement .reset := by unfold Statement; decide

theorem step (vin : Volts) : Statement (.step vin) := by
  unfold Statement encode portWord rowMatch operandBits
  congr 1

theorem hold : Statement .hold := by unfold Statement; decide

end Sys2Proof.Laws.CanonicalWord
end

