-- ==== Sys2Proof/Laws/State.lean ====
section
/-! SUPPORT. One lemma per field for each named operation over the state, so that no proof unfolds a record update. -/

namespace Sys2Proof.Machine

@[simp] theorem finishTick_wasHigh (s : State) (w' fire : Bool) : (finishTick s w' fire).wasHigh = w' := rfl
@[simp] theorem finishTick_out (s : State) (w' fire : Bool) : (finishTick s w' fire).out = some { fire := fire, high := s.wasHigh } := rfl
@[simp] theorem finishTick_params (s : State) (w' fire : Bool) : (finishTick s w' fire).params = s.params := rfl
@[simp] theorem finishTick_moves (s : State) (w' fire : Bool) : (finishTick s w' fire).moves = s.moves := rfl
@[simp] theorem finishTick_powerOns (s : State) (w' fire : Bool) : (finishTick s w' fire).powerOns = s.powerOns := rfl

@[simp] theorem setMoves_wasHigh (s : State) (ms : List HostMove) : (setMoves s ms).wasHigh = s.wasHigh := rfl
@[simp] theorem setMoves_out (s : State) (ms : List HostMove) : (setMoves s ms).out = s.out := rfl
@[simp] theorem setMoves_params (s : State) (ms : List HostMove) : (setMoves s ms).params = s.params := rfl
@[simp] theorem setMoves_moves (s : State) (ms : List HostMove) : (setMoves s ms).moves = ms := rfl
@[simp] theorem setMoves_powerOns (s : State) (ms : List HostMove) : (setMoves s ms).powerOns = s.powerOns := rfl

@[simp] theorem noEdge_wasHigh (s : State) : (noEdge s).wasHigh = s.wasHigh := rfl
@[simp] theorem noEdge_out (s : State) : (noEdge s).out = none := rfl
@[simp] theorem noEdge_params (s : State) : (noEdge s).params = s.params := rfl
@[simp] theorem noEdge_moves (s : State) : (noEdge s).moves = s.moves := rfl
@[simp] theorem noEdge_powerOns (s : State) : (noEdge s).powerOns = s.powerOns := rfl

@[simp] theorem powerUp_wasHigh (s : State) (draw : Bool) : (powerUp s draw).wasHigh = draw := rfl
@[simp] theorem powerUp_out (s : State) (draw : Bool) : (powerUp s draw).out = none := rfl
@[simp] theorem powerUp_params (s : State) (draw : Bool) : (powerUp s draw).params = s.params := rfl
@[simp] theorem powerUp_moves (s : State) (draw : Bool) : (powerUp s draw).moves = s.moves := rfl
@[simp] theorem powerUp_powerOns (s : State) (draw : Bool) : (powerUp s draw).powerOns = s.powerOns + 1 := rfl

@[simp] theorem drawPowerOn_wasHigh (s : State) : (drawPowerOn s).wasHigh = Config.powerOnDraw s.powerOns := rfl
@[simp] theorem drawPowerOn_out (s : State) : (drawPowerOn s).out = none := rfl
@[simp] theorem drawPowerOn_params (s : State) : (drawPowerOn s).params = s.params := rfl
@[simp] theorem drawPowerOn_moves (s : State) : (drawPowerOn s).moves = s.moves := rfl
@[simp] theorem drawPowerOn_powerOns (s : State) : (drawPowerOn s).powerOns = s.powerOns + 1 := rfl

@[simp] theorem presentNext_wasHigh (s : State) (cmd : Word) : (presentNext s cmd).wasHigh = s.wasHigh := rfl
@[simp] theorem presentNext_out (s : State) (cmd : Word) : (presentNext s cmd).out = s.out := rfl
@[simp] theorem presentNext_params (s : State) (cmd : Word) : (presentNext s cmd).params = s.params := rfl
@[simp] theorem presentNext_moves (s : State) (cmd : Word) : (presentNext s cmd).moves = .tick cmd :: s.moves := rfl
@[simp] theorem presentNext_powerOns (s : State) (cmd : Word) : (presentNext s cmd).powerOns = s.powerOns := rfl

@[simp] theorem powerOnState_wasHigh (p : Params) (draw : Bool) : (powerOnState p draw).wasHigh = draw := rfl
@[simp] theorem powerOnState_out (p : Params) (draw : Bool) : (powerOnState p draw).out = none := rfl
@[simp] theorem powerOnState_params (p : Params) (draw : Bool) : (powerOnState p draw).params = p := rfl
@[simp] theorem powerOnState_moves (p : Params) (draw : Bool) : (powerOnState p draw).moves = [] := rfl
@[simp] theorem powerOnState_powerOns (p : Params) (draw : Bool) : (powerOnState p draw).powerOns = 0 := rfl

@[simp] theorem after_trace (t : State) (r : RunRecord) : (RunRecord.after t r).trace = t.out.toList ++ r.trace := rfl
@[simp] theorem after_final (t : State) (r : RunRecord) : (RunRecord.after t r).final = r.final := rfl

/-- Two states are equal when their five fields are. -/
theorem state_ext {s t : State} (h1 : s.wasHigh = t.wasHigh) (h2 : s.out = t.out) (h3 : s.params = t.params)
    (h4 : s.moves = t.moves) (h5 : s.powerOns = t.powerOns) : s = t := by
  cases s; cases t; simp_all

end Sys2Proof.Machine
end

