-- ==== Sys2Proof/Laws/Step.lean ====
section
/-! SUPPORT. What each shared operation over the state can do, once: the transition, a step, elaboration, a run's steps,
and the bank of instances. -/

namespace Sys2Proof.Machine

/-- The three things a transition can be: a rising edge, a fall, or nothing. -/
theorem transition_cases (p : Params) (w : Bool) (u : Fp) :
    (w = false ∧ aboveHi p u = true ∧ transition p w u = (true, true)) ∨
    (w = true ∧ belowLo p u = true ∧ transition p w u = (false, false)) ∨
    (¬ (w = false ∧ aboveHi p u = true) ∧ ¬ (w = true ∧ belowLo p u = true) ∧ transition p w u = (w, false)) := by
  unfold transition
  by_cases hr : w = false ∧ aboveHi p u = true
  · exact .inl ⟨hr.1, hr.2, if_pos hr⟩
  · by_cases hf : w = true ∧ belowLo p u = true
    · exact .inr (.inl ⟨hf.1, hf.2, by rw [if_neg hr, if_pos hf]⟩)
    · exact .inr (.inr ⟨hr, hf, by rw [if_neg hr, if_neg hf]⟩)

/-- A transition's edge is 1 only from 0 to 1. -/
theorem transition_edge {p : Params} {w : Bool} {u : Fp} (h : (transition p w u).2 = true) :
    w = false ∧ (transition p w u).1 = true := by
  obtain ⟨hw, _, e⟩ | ⟨_, _, e⟩ | ⟨_, _, e⟩ := transition_cases p w u <;> simp_all

/-- Every command ends the tick in `finishTick`, with an edge only from 0 to 1. -/
theorem exec_ends_tick (i : Instr) (s : State) :
    ∃ w' fire, exec i s = .next (finishTick s w' fire) ∧ (fire = true → s.wasHigh = false ∧ w' = true) := by
  cases i with
  | reset => exact ⟨_, _, rfl, by simp⟩
  | step vin => exact ⟨_, _, rfl, transition_edge⟩
  | hold => exact ⟨_, _, rfl, by simp⟩

/-- All a step can do, by the host's next move. -/
theorem step_cases {s t : State} (h : step s = .next t) :
    (s.moves = [] ∧ t = noEdge s) ∨
    (∃ rest, s.moves = .stopClock :: rest ∧ t = noEdge (setMoves s rest)) ∨
    (∃ rest, s.moves = .powerOn :: rest ∧ t = drawPowerOn (setMoves s rest)) ∨
    (∃ cmd rest, s.moves = .tick cmd :: rest ∧ tick cmd (setMoves s rest) = .next t) := by
  unfold step nextMove at h
  match hm : s.moves with
  | [] => rw [hm] at h; exact .inl ⟨rfl, by injection h with h; exact h.symm⟩
  | .stopClock :: rest => rw [hm] at h; exact .inr (.inl ⟨rest, rfl, by injection h with h; exact h.symm⟩)
  | .powerOn :: rest => rw [hm] at h; exact .inr (.inr (.inl ⟨rest, rfl, by injection h with h; exact h.symm⟩))
  | .tick cmd :: rest => rw [hm] at h; exact .inr (.inr (.inr ⟨cmd, rest, rfl, h⟩))

/-- What a step does when the host's next move is `m`. -/
theorem step_of_moves {s : State} {m : HostMove} {rest : List HostMove} (h : s.moves = m :: rest) :
    step s = hostMove m (setMoves s rest) := by
  unfold step nextMove; rw [h]

/-- Elaboration answers a power-on state for a legal set and refuses every other. -/
theorem elaborate_cases (p : Params) (draw : Bool) :
    (p.legal = true ∧ elaborate p draw = .next (powerOnState p draw)) ∨
    (p.legal = false ∧ elaborate p draw = .refused .illegalParameters) := by
  unfold elaborate
  cases hp : p.legal
  · exact .inr ⟨rfl, if_neg (by simp)⟩
  · exact .inl ⟨rfl, if_pos rfl⟩

@[simp] theorem runSteps_zero (s : State) : runSteps 0 s = .next { trace := [], final := s } := rfl

/-- A run's first step, where it answers a next state, is followed by the run from there. -/
theorem runSteps_succ {k : Nat} {s t : State} {r : RunRecord} (h : step s = .next t) (hr : runSteps k t = .next r) :
    runSteps (k + 1) s = .next (RunRecord.after t r) := by
  simp only [runSteps, h, hr]

@[simp] theorem bankGet_bankSet_same (b : Bank) (i : Inst) (s : State) : bankGet (bankSet b i s) i = s := by
  cases i <;> rfl

@[simp] theorem bankGet_bankSet_other (b : Bank) {i j : Inst} (s : State) (h : j ≠ i) :
    bankGet (bankSet b i s) j = bankGet b j := by
  cases i <;> cases j <;> first | rfl | exact absurd rfl h

/-- Two banks are equal when every instance's state is. -/
theorem bank_ext {a b : Bank} (h : ∀ i, bankGet a i = bankGet b i) : a = b := by
  have h1 := h .etFaster3
  have h2 := h .etFaster2
  have h3 := h .etFaster1
  have h4 := h .etSlower1
  have h5 := h .etReset
  have h6 := h .etPlay
  cases a; cases b; simp_all [bankGet]

end Sys2Proof.Machine
end

