-- ==== Sys2Proof/Tests/Slice0.lean ====
section
/-! SUPPORT. The model's own tests. Expected values come from spec/95_test_vectors.md (V-, P-, W-rows, named in each
comment) or from a rule; the second half shows, for each statement with hypotheses, operands that meet them. -/

namespace Sys2Proof.Tests

open Sys2Proof Sys2Proof.Machine

/-- The default block with its state bit at `w`. -/
def blockAt (w : Bool) : State := { State.reset with wasHigh := w }

/-- The default block at `w`, with `THRESH_INCLUSIVE` = true. -/
def inclusiveAt (w : Bool) : State := { blockAt w with params := Params.inclusive }

/-- The default block at 0, with `RESET_VALUE` = 1. -/
def resetsToOne : State := { blockAt false with params := { Params.default with resetValue := true } }

/-- The state an outcome ends in has the state bit `w'` and the outputs `fire`, `high`. -/
def endsWith (o : Host.Outcome State Fault Refusal) (w' fire high : Bool) : Bool :=
  match o with
  | .next t => t.wasHigh == w' && t.out == some { fire := fire, high := high }
  | .fault _ => false
  | .refused _ => false

/-- The edges of a run, and its end state bit. -/
def runsTo (o : Host.Outcome RunRecord Fault Refusal) (edges : List Bool) (w' : Bool) : Bool :=
  match o with
  | .next r => r.trace.map (fun x => x.fire) == edges && r.final.wasHigh == w'
  | .fault _ => false
  | .refused _ => false

/-! ### Well-formedness: one ill-formed term for each check -/

theorem test_default_is_legal : Params.default.legal = true ∧ Params.inclusive.legal = true := by decide
theorem test_narrow_exponent_refused : fitsPort { expBits := 1, fracBits := 30 } = false := by decide
theorem test_no_fraction_refused : fitsPort { expBits := 31, fracBits := 0 } = false := by decide
theorem test_short_format_refused : fitsPort { expBits := 5, fracBits := 10 } = false := by decide
theorem test_format_refused : { Params.default with fmt := { expBits := 5, fracBits := 10 } }.legal = false := by decide
theorem test_empty_window_refused : { Params.default with vLo := 0x40000000#32 }.legal = false := by decide
theorem test_infinite_window_refused : { Params.default with vHi := 0x7F800000#32 }.legal = false := by decide
theorem test_nan_window_refused : { Params.default with vLo := 0x7FC00000#32 }.legal = false := by decide
theorem test_empty_image_refused : { Params.default with yHi := 0x80000000#32 }.legal = false := by decide
theorem test_crossed_thresholds_refused : { Params.default with tLo := 0x3F800001#32 }.legal = false := by decide

/-! ### Decoding: words written out bit by bit from 30_encoding.md R42 to R44 -/

/-- V-X2: `1`, `1`, and 10.0 V in the ignored bits. -/
theorem test_decode_reset : decode 0b1101000001001000000000000000000000#34 = .reset := by decide
/-- V-S12: `01`, then sign 0, exponent 10000010, fraction 0100…0: 10.0 V. -/
theorem test_decode_step : decode 0b0101000001001000000000000000000000#34 = .step 0x41200000#32 := by decide
/-- V-H2: `00`, then ignored ones. -/
theorem test_decode_hold : decode 0b0011111111111111111111111111111111#34 = .hold := by decide
theorem test_no_two_rows_overlap :
    opcodeTable.Pairwise (fun r q => r.matchBits &&& q.mask &&& r.mask ≠ q.matchBits &&& q.mask &&& r.mask) := by decide
theorem test_table_word_too_wide : decodeTableWord 40 0x400000000 = none := by decide
theorem test_encode_step : encode (.step 0x40A00000#32) = 0x140A00000#34 := by decide

/-! ### The number format and the rescale -/

/-- 00_scope.md R6: `V_LO` = fl32(0.1), and `SPAN`. -/
theorem test_parameter_bits : pack .binary32 (fl32 .binary32 false 1 10) = 0x3DCCCCCD#32 ∧
    pack .binary32 (span Params.default) = 0x3FF33333#32 := by decide
/-- V-R5 to V-R7, V-R10 to V-R12: one unit in the last place around both thresholds. -/
theorem test_rescale_near_thresholds :
    rescale Params.default 0x3DCCCCCC#32 = unpack .binary32 0xB186BCA2#32 ∧
    rescale Params.default 0x3DCCCCCD#32 = unpack .binary32 0x00000000#32 ∧
    rescale Params.default 0x3DCCCCCE#32 = unpack .binary32 0x3186BCA2#32 ∧
    rescale Params.default 0x3FFFFFFF#32 = unpack .binary32 0x3F7FFFFF#32 ∧
    rescale Params.default 0x40000000#32 = unpack .binary32 0x3F800000#32 ∧
    rescale Params.default 0x40000001#32 = unpack .binary32 0x3F800001#32 := by decide
/-- V-R1, V-R3, V-R4, V-R9, V-R14, V-R16 to V-R18. -/
theorem test_rescale_far :
    rescale Params.default 0x00000000#32 = unpack .binary32 0xBD579436#32 ∧
    rescale Params.default 0x00000001#32 = unpack .binary32 0xBD579436#32 ∧
    rescale Params.default 0x3D4CCCCD#32 = unpack .binary32 0xBCD79436#32 ∧
    rescale Params.default 0x3F866666#32 = unpack .binary32 0x3EFFFFFF#32 ∧
    rescale Params.default 0x40A00000#32 = unpack .binary32 0x40250D7A#32 ∧
    rescale Params.default 0xC1200000#32 = unpack .binary32 0xC0AA1AF3#32 ∧
    rescale Params.default 0x7F7FFFFF#32 = unpack .binary32 0x7F06BCA1#32 ∧
    rescale Params.default 0xFF7FFFFF#32 = unpack .binary32 0xFF06BCA1#32 := by decide
/-- 40_comparator_ops.md R53: `fadd(+0.0, -0.0)` = +0.0. -/
theorem test_add_of_zeros : fadd .binary32 (.fin false 0) (.fin true 0) = .fin false 0 := by decide
/-- 40_comparator_ops.md R54: nothing is clamped; 10.0 V lands above `Y_HI` and 0.0 V below `Y_LO`. -/
theorem test_no_clamp : fgt (rescale Params.default 0x41200000#32) (unpack .binary32 0x3F800000#32) = true ∧
    flt (rescale Params.default 0x00000000#32) (unpack .binary32 0x00000000#32) = true := by decide

/-! ### The commands, one step each, fetched where `step` fetches -/

/-- V-S11 strict, w = 0: one unit above 2.0 V fires. -/
theorem test_step_rises : endsWith (step ((blockAt false).withFetchWord 40 0x140000001)) true true false = true := by
  decide
/-- V-S10, w = 0: exactly 2.0 V fires only where `THRESH_INCLUSIVE` holds. -/
theorem test_step_at_threshold :
    endsWith (step ((blockAt false).withFetchWord 40 0x140000000)) false false false = true ∧
    endsWith (step ((inclusiveAt false).withFetchWord 40 0x140000000)) true true false = true := by decide
/-- V-S5 and V-S6, w = 1: one unit below fl32(0.1) falls; exactly fl32(0.1) falls only where `THRESH_INCLUSIVE` holds. -/
theorem test_step_falls :
    endsWith (step ((blockAt true).withFetchWord 40 0x13DCCCCCC)) false false true = true ∧
    endsWith (step ((blockAt true).withFetchWord 40 0x13DCCCCCD)) true false true = true ∧
    endsWith (step ((inclusiveAt true).withFetchWord 40 0x13DCCCCCD)) false false true = true := by decide
/-- V-H3, w = 1: a HOLD with 10.0 V in its ignored bits. -/
theorem test_hold_holds : endsWith (step ((blockAt true).withFetchWord 40 0x041200000)) true false true = true := by
  decide
/-- V-X3, w = 1: a RESET with `conn` = 1 and ones everywhere. -/
theorem test_reset_wins : endsWith (step ((blockAt true).withFetchWord 40 0x3FFFFFFFF)) false false true = true := by
  decide
/-- V-X2 with `RESET_VALUE` = 1, w = 0: a RESET never fires. -/
theorem test_reset_value_one :
    endsWith (exec .reset resetsToOne) true false false = true := by decide
/-- P3, ticks 1 to 4: reconnecting at a high level does not fire. -/
theorem test_reconnect :
    runsTo (runCommands [0x141200000#34, 0x000000000#34, 0x141200000#34] (blockAt false)) [true, false, false] true
      = true := by decide

/-! ### Stimulus -/

/-- 30_encoding.md R51: "STEP 0x40000001 ; x". -/
theorem test_read_step_bits :
    (readLine ['S', 'T', 'E', 'P', ' ', '0', 'x', '4', '0', '0', '0', '0', '0', '0', '1', ' ', ';', ' ', 'x']).toOption =
      some (.stepBits 0x40000001#32) := by decide
/-- V-S13: "STEP -10.0" is 0x1_C1200000. -/
theorem test_read_decimal :
    ((readLine ['S', 'T', 'E', 'P', ' ', '-', '1', '0', '.', '0']).toOption.map (assemble .binary32)) =
      some 0x1C1200000#34 := by decide
/-- P5: "WORD 0x341200000"; a number of more than 34 bits, or with a separator (log entry 13), is refused. -/
theorem test_read_word :
    (readLine ['W', 'O', 'R', 'D', ' ', '0', 'x', '3', '4', '1', '2', '0', '0', '0', '0', '0']).toOption =
      some (.word 0x341200000#34) ∧
    (readLine ['W', 'O', 'R', 'D', ' ', '0', 'x', '3', '_', '4', '1', '2', '0', '0', '0', '0', '0']).toOption = none ∧
    (readLine ['W', 'O', 'R', 'D', ' ', '0', 'x', '4', '4', '1', '2', '0', '0', '0', '0', '0']).toOption = none := by
  decide

/-! ### Witnesses: the hypotheses of the statements can be met -/

theorem witness_DecodeFollowsPriority :
    (0x3FFFFFFFF#34).getLsbD 33 = true ∧
    ((0x100000000#34).getLsbD 33 = false ∧ (0x100000000#34).getLsbD 32 = true) ∧
    ((0x0FFFFFFFF#34).getLsbD 33 = false ∧ (0x0FFFFFFFF#34).getLsbD 32 = false) := by decide

theorem witness_DecodeOfEncodeIsIdentity : (Instr.step 0xFFFFFFFF#32).wellFormed = true := by decide

theorem witness_IgnoredBitsHaveNoEffect :
    sameCaredBits 0x200000000#34 0x3FFFFFFFF#34 = true ∧ sameCaredBits 0x000000000#34 0x0FFFFFFFF#34 = true ∧
    sameCaredBits 0x100000000#34 0x100000001#34 = false := by decide

theorem witness_OperandWordIsBinary32 :
    (((0x7F800000#32).extractLsb' 23 8).toNat = 255 ∧ ((0x7F800000#32).extractLsb' 0 23).toNat = 0) ∧
    (((0xFF800001#32).extractLsb' 23 8).toNat = 255 ∧ ((0xFF800001#32).extractLsb' 0 23).toNat ≠ 0) ∧
    ((0x807FFFFF#32).extractLsb' 23 8).toNat = 0 ∧
    (((0x00800000#32).extractLsb' 23 8).toNat ≠ 0 ∧ ((0x7F7FFFFF#32).extractLsb' 23 8).toNat ≠ 255) := by decide

/-- In binary32 a tie (1/2 unit) with its even result and the neighbour it ties with, the last unit below the overflow bound
and the bound itself; and the same bound in the format of 2 exponent bits, where it is 2^31 - 1 units. -/
theorem witness_RoundingIsNearestEven :
    fitsPort .binary32 = true ∧ roundTo .binary32 false 1 2 = .fin false 0 ∧ onGrid .binary32 1 ∧
    roundTo .binary32 true ((2 ^ 25 - 1) * 2 ^ 252 - 1) 1 = .fin true ((2 ^ 24 - 1) * 2 ^ 253) ∧
    roundTo .binary32 true ((2 ^ 25 - 1) * 2 ^ 252) 1 = .inf true ∧
    fitsPort { expBits := 2, fracBits := 29 } = true ∧
    roundTo { expBits := 2, fracBits := 29 } false (2 ^ 31 - 2) 1 = .fin false (2 ^ 31 - 2) ∧
    roundTo { expBits := 2, fracBits := 29 } false (2 ^ 31 - 1) 1 = .inf false :=
  ⟨by decide, by decide, ⟨1, 0, by decide, by decide⟩, by decide, by decide, by decide, by decide, by decide⟩

theorem witness_PackOfUnpackIsIdentity :
    isNaN (unpack .binary32 0x7F800000#32) = false ∧ isNaN (unpack .binary32 0x80000001#32) = false := by decide

/-- In binary32 units: 1 + 1 is no zero sum, and 1 + (-1) is one; 1 - 2 is no zero difference, and 1 - 1 is one. -/
theorem witness_SumIsCorrectlyRounded :
    fpValue .binary32 (.fin false 1) + fpValue .binary32 (.fin false 1) ≠ 0 ∧
    fpValue .binary32 (.fin false 1) + fpValue .binary32 (.fin true 1) = 0 ∧
    fpValue .binary32 (.fin false 1) - fpValue .binary32 (.fin false 2) ≠ 0 ∧
    fpValue .binary32 (.fin false 1) - fpValue .binary32 (.fin false 1) = 0 := by
  have h : unitShift .binary32 = 149 := by decide
  simp only [fpValue, signedMag, h]
  norm_num

/-- The least finite magnitude that is not zero, as an operand beside an infinity or a zero. -/
theorem witness_ProductAndQuotient : unpack .binary32 0x00000001#32 = .fin false 1 ∧ (1 : Nat) ≠ 0 := by decide

theorem witness_ComparisonsFollowValues : isNaN (unpack .binary32 0xFF800000#32) = false := by decide

/-- A high state before a HOLD, before a STEP of exactly fl32(0.1), before a RESET to 1, and before a stopped clock. -/
theorem witness_HighIntervalContinues :
    (blockAt true).wasHigh = true ∧ cannotFall Params.default 0x0FFFFFFFF#34 = true ∧
    cannotFall Params.default 0x13DCCCCCD#34 = true ∧
    (decode 0x200000000#34 = .reset ∧ resetsToOne.params.resetValue = true) ∧
    (∃ t, step ((blockAt true).withFetchWord 40 0x0FFFFFFFF) = .next t) ∧
    (∃ t, step { blockAt true with moves := [.stopClock] } = .next t) :=
  ⟨rfl, by decide, by decide, by decide, ⟨_, rfl⟩, ⟨_, rfl⟩⟩

/-- At `V_LO` the quotient `q` is +0.0. -/
theorem witness_RescaleFormula :
    fdiv .binary32 (fsub .binary32 (unpack .binary32 0x3DCCCCCD#32) (unpack .binary32 0x3DCCCCCD#32))
      (unpack .binary32 0x3FF33333#32) = .fin false 0 := by decide

theorem witness_RescaleKeepsOrder :
    fle (unpack .binary32 0xFF800000#32) (unpack .binary32 0x3DCCCCCC#32) = true ∧
    fle (unpack .binary32 0x80000000#32) (unpack .binary32 0x00000000#32) = true := by decide

theorem witness_SpecialOperandsRescale :
    0x7F800000 < (0xFF800001#32).toNat % 2 ^ 31 ∧ (0x807FFFFF#32).toNat % 2 ^ 31 ≤ 0x007FFFFF := by decide

theorem witness_TransitionFollowsThresholds :
    aboveHi Params.default (unpack .binary32 0x3F800001#32) = true ∧
    belowLo Params.default (unpack .binary32 0x80000001#32) = true ∧
    ¬ (false = false ∧ aboveHi Params.default (unpack .binary32 0x3F800000#32) = true) ∧
    ¬ (true = true ∧ belowLo Params.default (unpack .binary32 0x80000000#32) = true) ∧
    Params.default.legal = true := by decide

theorem witness_SpanIsNeverZero : { Params.default with vLo := 0x3FFFFFFF#32 }.legal = true := by decide

theorem witness_StepCommandResult :
    ((blockAt false).wasHigh = false ∧ aboveHi Params.default (rescale Params.default 0x40000001#32) = true) ∧
    ((blockAt true).wasHigh = true ∧ belowLo Params.default (rescale Params.default 0x3DCCCCCC#32) = true) ∧
    aboveHi Params.default (rescale Params.default 0x40000000#32) = false ∧
    belowLo Params.default (rescale Params.default 0x3DCCCCCD#32) = false := by decide

theorem witness_HoldCommandResult :
    ((0x0FFFFFFFF#34).getLsbD 33 = false ∧ (0x0FFFFFFFF#34).getLsbD 32 = false) ∧
    (∀ c ∈ [0x000000000#34, 0x0FFFFFFFF#34], decode c = .hold) ∧ (blockAt true).wasHigh = true :=
  ⟨by decide, List.forall_mem_cons.2 ⟨by decide, List.forall_mem_singleton.2 (by decide)⟩, rfl⟩

theorem witness_ResetCommandResult :
    (0x3FFFFFFFF#34).getLsbD 33 = true ∧ (blockAt true).params.resetValue = false ∧
    aboveHi (blockAt true).params (rescale (blockAt true).params 0x40000001#32) = true ∧
    (blockAt true).params = Params.default ∧ (blockAt true).wasHigh = true := by decide

theorem witness_ResetWinsOverConn : (0x300000000#34).getLsbD 33 = true ∧ (0x300000000#34).getLsbD 32 = true := by decide

theorem witness_StepOfNaNHolds :
    isNaN (unpack State.reset.params.fmt 0x7F800001#32) = true ∧
    isNaN (unpack State.reset.params.fmt 0xFFFFFFFF#32) = true := by decide

theorem witness_CommandFrame : ∃ t, exec (.step 0x40000001#32) State.reset = .next t :=
  let ⟨_, _, h, _⟩ := exec_ends_tick (.step 0x40000001#32) State.reset
  ⟨_, h⟩

theorem witness_StepRunsTheDecodedCommand :
    { State.reset with moves := [.tick 0x141200000#34, .stopClock] }.moves = .tick 0x141200000#34 :: [.stopClock] := rfl

theorem witness_StoppedClockHoldsState :
    State.reset.moves = [] ∧ { State.reset with moves := [.stopClock] }.moves = .stopClock :: [] ∧
    { State.reset with moves := [.stopClock, .tick 0x000000000#34] }.moves = .stopClock :: .tick 0x000000000#34 :: [] :=
  ⟨rfl, rfl, rfl⟩

theorem witness_PowerOnTakesTheDraw : { State.reset with moves := [.powerOn] }.moves = .powerOn :: [] := rfl

theorem witness_ElaborationRefusesIllegalSets :
    Params.default.legal = true ∧ { Params.default with vHi := Params.default.vLo }.legal = false := by decide

/-- One step for each of the four cases of the next host move: a tick, a power-on, a stopped clock, and none. -/
theorem witness_StepFrame :
    (∃ t, step (State.reset.withFetchWord 40 0x141200000) = .next t) ∧
    (∃ t, step { State.reset with moves := [.powerOn] } = .next t) ∧
    (∃ t, step { State.reset with moves := [.stopClock] } = .next t) ∧
    (∃ t, step State.reset = .next t) :=
  ⟨⟨_, rfl⟩, ⟨_, rfl⟩, ⟨_, rfl⟩, ⟨_, rfl⟩⟩

theorem high_block_meets_inv : Inv (blockAt true) := ⟨by decide, by intro o h; cases h⟩

theorem witness_StepKeepsInvariant :
    Inv (blockAt true) ∧ ∃ t, step ((blockAt true).withFetchWord 40 0x13DCCCCCC) = .next t :=
  ⟨high_block_meets_inv, _, rfl⟩

theorem witness_FireIsExactlyARisingStep : ∃ t, tick 0x141200000#34 State.reset = .next t := ⟨_, rfl⟩

theorem witness_HysteresisBandKeepsState :
    aboveHi State.reset.params (rescale State.reset.params 0x40000000#32) = false ∧
    belowLo State.reset.params (rescale State.reset.params 0x40000000#32) = false := by decide

theorem witness_RepeatedCommandIsIdempotent :
    State.reset.params.legal = true ∧ ∃ t, exec (.step 0x40000001#32) State.reset = .next t :=
  ⟨by decide, witness_CommandFrame⟩

theorem witness_RepeatedStepDoesNotFire : (blockAt true).params.legal = true := by decide

theorem witness_HighShowsStateBeforeTick : 0 < [0x141200000#34].length := by decide

/-- P1, ticks 2, 4 and 5: two edges with a falling STEP between them. -/
theorem witness_OneEdgePerHighInterval :
    ∃ r, runCommands [0x141200000#34, 0x100000000#34, 0x141200000#34] State.reset = .next r ∧
      0 < 2 ∧ firedAt r 0 ∧ firedAt r 2 :=
  ⟨_, rfl, by decide, ⟨_, rfl, by decide⟩, ⟨_, rfl, by decide⟩⟩

/-- P5, ticks 1 to 3: two edges with a RESET, `conn` = 1, between them. -/
theorem witness_OneEdgePerHighInterval_reset :
    ∃ r, runCommands [0x141200000#34, 0x341200000#34, 0x141200000#34] State.reset = .next r ∧
      0 < 2 ∧ firedAt r 0 ∧ firedAt r 2 :=
  ⟨_, rfl, by decide, ⟨_, rfl, by decide⟩, ⟨_, rfl, by decide⟩⟩

/-- With `RESET_VALUE` = 1: two edges with a falling STEP between them. -/
theorem witness_OneEdgePerHighInterval_resetValue :
    ∃ r, runCommands [0x141200000#34, 0x1FF800000#34, 0x17F800000#34] resetsToOne = .next r ∧
      0 < 2 ∧ firedAt r 0 ∧ firedAt r 2 ∧ resetsToOne.params.resetValue = true :=
  ⟨_, rfl, by decide, ⟨_, rfl, by decide⟩, ⟨_, rfl, by decide⟩, rfl⟩

theorem witness_BootResetRemovesTheDraw : decode 0x3FFFFFFFF#34 = .reset := by decide

theorem witness_DrawDecidesTheFirstEdge :
    aboveHi Params.default (rescale Params.default 0x40000001#32) = true ∧
    aboveHi Params.inclusive (rescale Params.inclusive 0x40000000#32) = true ∧
    ([0x0FFFFFFFF#34, 0x140000000#34, 0x100000000#34].all (cannotRise Params.default)) = true ∧
    ([0x0FFFFFFFF#34, 0x140000001#34, 0x13DCCCCCD#34].all (cannotFall Params.default)) = true := by decide

theorem witness_FirstStepAfterReset :
    decode 0x200000000#34 = .reset ∧ (∀ c ∈ [0x000000000#34, 0x0FFFFFFFF#34], decode c = .hold) ∧
    (∀ c ∈ ([] : List Word), decode c = .hold) ∧
    State.reset.params.resetValue = false ∧ resetsToOne.params.resetValue = true :=
  ⟨by decide, List.forall_mem_cons.2 ⟨by decide, List.forall_mem_singleton.2 (by decide)⟩, by simp, rfl, rfl⟩

theorem witness_HeldResetIsOneReset :
    [0x200000000#34, 0x3FFFFFFFF#34] ≠ [] ∧ ∀ c ∈ [0x200000000#34, 0x3FFFFFFFF#34], decode c = .reset :=
  ⟨by decide, List.forall_mem_cons.2 ⟨by decide, List.forall_mem_singleton.2 (by decide)⟩⟩

theorem witness_InstancesShareNoState : Inst.etPlay ≠ Inst.etReset := by decide

theorem witness_InstanceOrderIsUnobservable :
    [(Inst.etReset, 0x200000000#34), (Inst.etPlay, 0x141200000#34)].Perm
      [(Inst.etPlay, 0x141200000#34), (Inst.etReset, 0x200000000#34)] ∧
    ([(Inst.etReset, 0x200000000#34), (Inst.etPlay, 0x141200000#34)].map Prod.fst).Nodup :=
  ⟨List.Perm.swap _ _ _, by decide⟩

end Sys2Proof.Tests
end

section
/-! PROOF. What the decoder reads from a word, what an operand word stands for, and how a NaN runs through a STEP; then the
statements of the encoding family. -/

namespace Sys2Proof

/-! ### The decoder, command by command (30_encoding.md R45) -/

theorem decode_eq_reset_iff {w : Word} : decode w = .reset ↔ rstBit w = true := by
  unfold decode
  cases rstBit w <;> cases connBit w <;> simp

theorem decode_eq_step_iff {w : Word} {v : Volts} :
    decode w = .step v ↔ rstBit w = false ∧ connBit w = true ∧ vinField w = v := by
  unfold decode
  cases rstBit w <;> cases connBit w <;> simp

theorem decode_eq_hold_iff {w : Word} : decode w = .hold ↔ rstBit w = false ∧ connBit w = false := by
  unfold decode
  cases rstBit w <;> cases connBit w <;> simp

/-- The cared-for bits are the command: each command fixes the bits it reads, and those alone (R48). -/
theorem sameCaredBits_iff_decode_eq (a b : Word) : sameCaredBits a b = true ↔ decode a = decode b := by
  rw [eq_comm (a := decode a)]
  unfold sameCaredBits
  cases ha : decode a with
  | reset =>
    have hr := decode_eq_reset_iff.1 ha
    simp [decode_eq_reset_iff, hr]
  | step v =>
    obtain ⟨hr, hc, hv⟩ := decode_eq_step_iff.1 ha
    simp [decode_eq_step_iff, hr, hc, hv, eq_comm (a := v)]
  | hold =>
    obtain ⟨hr, hc⟩ := decode_eq_hold_iff.1 ha
    simp [decode_eq_hold_iff, hr, hc]

@[simp] theorem Instr.wellFormed_eq_true (i : Instr) : i.wellFormed = true := by cases i <;> rfl

/-! ### The ports of a word made of them (30_encoding.md R41) -/

@[simp] theorem rstBit_portWord (r c : Bool) (v : Volts) : rstBit (portWord r c v) = r := by
  simp [rstBit, portWord]

@[simp] theorem connBit_portWord (r c : Bool) (v : Volts) : connBit (portWord r c v) = c := by
  simp [connBit, portWord]

@[simp] theorem vinField_portWord (r c : Bool) (v : Volts) : vinField (portWord r c v) = v := by
  ext i hi
  have h33 : i < 33 := by omega
  have h34 : i < 34 := by omega
  simp [vinField, portWord, hi, h33, h34]

theorem decode_encode_step (v : Volts) : decode (encode (.step v)) = .step v :=
  decode_eq_step_iff.2 ⟨rstBit_portWord .., connBit_portWord .., vinField_portWord ..⟩

namespace Machine

/-- No command stops the block, so every word's tick answers (60_exceptions.md R83). -/
theorem tick_answers (w : Word) (s : State) : ∃ t, tick w s = .next t := by
  obtain ⟨_, _, h, -⟩ := exec_ends_tick (decode w) s
  exact ⟨_, h⟩

/-! ### The value of an operand word, by its fields (30_encoding.md R46) -/

theorem unpack_of_infinity {f : Format} {b : Volts} (he : expField f b = 2 ^ f.expBits - 1) (hf : fracField f b = 0) :
    unpack f b = .inf (signField f b) := by
  unfold unpack; rw [if_pos he, if_pos hf]

theorem unpack_of_nan {f : Format} {b : Volts} (he : expField f b = 2 ^ f.expBits - 1) (hf : fracField f b ≠ 0) :
    unpack f b = .nan := by
  unfold unpack; rw [if_pos he, if_neg hf]

theorem unpack_of_subnormal {f : Format} {b : Volts} (he : expField f b ≠ 2 ^ f.expBits - 1) (h0 : expField f b = 0) :
    unpack f b = .fin (signField f b) (fracField f b) := by
  unfold unpack; rw [if_neg he, if_pos h0]

theorem unpack_of_normal {f : Format} {b : Volts} (he : expField f b ≠ 2 ^ f.expBits - 1) (h0 : expField f b ≠ 0) :
    unpack f b = .fin (signField f b) ((2 ^ f.fracBits + fracField f b) * 2 ^ (expField f b - 1)) := by
  unfold unpack; rw [if_neg he, if_neg h0]

theorem isNaN_unpack_iff (f : Format) (b : Volts) :
    isNaN (unpack f b) = true ↔ expField f b = 2 ^ f.expBits - 1 ∧ fracField f b ≠ 0 := by
  unfold unpack
  split_ifs <;> simp_all [isNaN]

/-! ### The fields of a binary32 word -/

theorem signField_binary32 (v : Volts) : signField .binary32 v = v.getLsbD 31 := by
  unfold signField
  rw [BitVec.getLsbD, Nat.testBit_eq_decide_div_mod_eq]
  rfl

theorem expField_binary32 (v : Volts) : expField .binary32 v = (v.extractLsb' 23 8).toNat := by
  simp [expField, Format.binary32, BitVec.extractLsb'_toNat, Nat.shiftRight_eq_div_pow]

theorem fracField_binary32 (v : Volts) : fracField .binary32 v = (v.extractLsb' 0 23).toNat := by
  simp [fracField, Format.binary32, BitVec.extractLsb'_toNat]

/-- The NaNs of binary32 are the words above the infinity's, sign aside (30_encoding.md R46). -/
theorem isNaN_unpack_binary32_iff (v : Volts) :
    isNaN (unpack .binary32 v) = true ↔ 0x7F800000 < v.toNat % 2 ^ 31 := by
  rw [isNaN_unpack_iff]
  simp only [expField, fracField, Format.binary32]
  omega

/-- A subnormal counted in units of 2^(-149) is `0.fraction × 2^(-126)`. -/
theorem subnormal_units_value (c : ℕ) : (c : ℚ) / 2 ^ 149 = (c : ℚ) / 2 ^ 23 / 2 ^ 126 := by
  rw [div_div, ← pow_add]

/-- A normal value counted in units of 2^(-149) is `1.fraction × 2^(exponent - 127)`. -/
theorem normal_units_value {e : ℕ} (he : e ≠ 0) (c : ℕ) :
    (((2 ^ 23 + c) * 2 ^ (e - 1) : ℕ) : ℚ) / 2 ^ 149 = (1 + (c : ℚ) / 2 ^ 23) * (2 : ℚ) ^ ((e : ℤ) - 127) := by
  obtain ⟨k, rfl⟩ := Nat.exists_eq_succ_of_ne_zero he
  have hexp : ((k.succ : ℕ) : ℤ) - 127 = (k : ℤ) - (126 : ℕ) := by push_cast; ring
  rw [hexp, zpow_sub₀ two_ne_zero, zpow_natCast, zpow_natCast, Nat.succ_sub_one]
  push_cast
  ring

/-! ### A NaN operand runs through a STEP as a NaN (30_encoding.md R49) -/

@[simp] theorem fadd_nan (f : Format) (a : Fp) : fadd f a .nan = .nan := by cases a <;> rfl

/-- The NaN passes through the left operands of the difference, quotient and product, and the right one of the sum. -/
@[simp] theorem rescaleFp_nan (p : Params) : rescaleFp p .nan = .nan := fadd_nan p.fmt _

@[simp] theorem aboveHi_nan (p : Params) : aboveHi p .nan = false := by
  simp [aboveHi, fge, fgt, fle_nan, flt_nan]

@[simp] theorem belowLo_nan (p : Params) : belowLo p .nan = false := by
  simp [belowLo, fle, flt]

@[simp] theorem transition_nan (p : Params) (w : Bool) : transition p w .nan = (w, false) := by
  simp [transition]

theorem execStep_nan {s : State} {v : Volts} (h : isNaN (unpack s.params.fmt v) = true) :
    execStep v s = .next (finishTick s s.wasHigh false) := by
  simp [execStep, rescale, isNaN_iff.1 h]

end Machine

open Sys2Proof.Machine

/-- Settles O1: the two control bits decide, `rst` before `conn`. -/
theorem decodeFollowsPriority : Obligations.DecodeFollowsPriority := fun _ =>
  ⟨decode_eq_reset_iff.2, fun hr hc => decode_eq_step_iff.2 ⟨hr, hc, rfl⟩, fun hr hc => decode_eq_hold_iff.2 ⟨hr, hc⟩⟩

/-- Settles O4: a tick sees its word through `decode` only, and words with the same cared-for bits decode alike. -/
theorem ignoredBitsHaveNoEffect : Obligations.IgnoredBitsHaveNoEffect := by
  refine ⟨fun w s => ⟨Instr.wellFormed_eq_true _, tick_answers w s⟩, sameCaredBits_iff_decode_eq, fun a b s h => ?_⟩
  unfold tick
  rw [(sameCaredBits_iff_decode_eq a b).1 h]

/-- Settles O7: the four kinds of words by their fields, each with its value in units of 2^(-149). -/
theorem operandWordIsBinary32 : Obligations.OperandWordIsBinary32 := by
  intro v
  rw [← expField_binary32, ← fracField_binary32, ← signField_binary32]
  refine ⟨unpack_of_infinity, unpack_of_nan, fun h0 => ?_, fun h0 hmax => ?_⟩
  · have hmax : expField .binary32 v ≠ 255 := by omega
    exact ⟨_, unpack_of_subnormal hmax h0, subnormal_units_value _⟩
  · exact ⟨_, unpack_of_normal hmax h0, normal_units_value h0 _⟩

/-- Settles O21: the NaN reaches the threshold tests, both are false, and no transition is taken. -/
theorem stepOfNaNHolds : Obligations.StepOfNaNHolds :=
  ⟨fun _ v h => ⟨Instr.wellFormed_eq_true _, decode_encode_step v, execStep_nan h⟩, isNaN_unpack_binary32_iff⟩

end Sys2Proof
end

section
/-! PROOF. What the rescale's constants do to a value of the format, what a legal set's thresholds exclude, a tick as one
function of the state, and a run tick by tick; then the statements of the comparator family. -/

namespace Sys2Proof

namespace Machine

/-! ### The default rescale (40_comparator_ops.md R53) -/

@[simp] theorem signedMag_zero (s : Bool) : signedMag s 0 = 0 := by cases s <;> rfl

/-- A value that the format holds: a finite one is on its grid and below its overflow bound. -/
def Fp.InFormat (f : Format) : Fp → Prop
  | .nan => True
  | .inf _ => True
  | .fin _ m => onGrid f m ∧ m.log2 < overflowLog f

theorem roundTo_inFormat (f : Format) (neg : Bool) (n : Nat) {d : Nat} (hd : 0 < d) :
    (roundTo f neg n d).InFormat f := by
  obtain ⟨h, e⟩ | ⟨_, e⟩ := roundTo_cases f neg n d <;> rw [e]
  · exact ⟨roundMag_onGrid f hd, h⟩
  · trivial

theorem fdiv_fin_inFormat (f : Format) (a : Fp) (t : Bool) (k : Nat) : (fdiv f a (.fin t k)).InFormat f := by
  cases a with
  | nan => trivial
  | inf s => trivial
  | fin s m =>
    simp only [fdiv]
    split_ifs with hk hm
    · trivial
    · trivial
    · exact roundTo_inFormat f _ _ (Nat.pos_of_ne_zero hk)

/-- 1.0 is `2 ^ unitShift` units, and a product with it rounds a value of the format to itself. -/
theorem fmul_one {f : Format} {x : Fp} (hx : x.InFormat f) : fmul f x (.fin false (2 ^ unitShift f)) = x := by
  cases x with
  | nan => rfl
  | inf s => simp [fmul]
  | fin s m =>
    obtain ⟨hgrid, hlog⟩ := hx
    simp only [fmul, Bool.xor_false]
    exact roundTo_exact (Nat.two_pow_pos _) hgrid hlog

/-- A nonzero number of units, as the exact sum, rounds under its own sign. -/
theorem roundSum_signedMag (f : Format) (z : Bool) {s : Bool} {m : Nat} (hm : m ≠ 0) :
    roundSum f z (signedMag s m) = roundTo f s m 1 := by
  cases s with
  | false => simp [roundSum, signedMag, hm, show ¬ (m : Int) < 0 by omega]
  | true => simp [roundSum, signedMag, hm, Nat.pos_of_ne_zero hm]

/-- A sum with +0.0 gives a value of the format back, but for a zero, whose sign becomes positive. -/
theorem zero_fadd {f : Format} {x : Fp} (hx : x.InFormat f) :
    fadd f (.fin false 0) x = x ∨ ∃ s, x = .fin s 0 ∧ fadd f (.fin false 0) x = .fin false 0 := by
  cases x with
  | nan => exact .inl rfl
  | inf s => exact .inl rfl
  | fin s m =>
    by_cases hm : m = 0
    · subst hm
      exact .inr ⟨s, rfl, by simp [fadd, roundSum]⟩
    · obtain ⟨hgrid, hlog⟩ := hx
      have hround : roundTo f s m 1 = .fin s m := by simpa using roundTo_exact Nat.one_pos hgrid hlog
      exact .inl (by simp [fadd, roundSum_signedMag _ _ hm, hround])

theorem span_default : span Params.default = unpack .binary32 0x3FF33333#32 := by decide

theorem ySpan_default : ySpan Params.default = unpack .binary32 0x3F800000#32 := by decide

theorem unpack_zero : unpack .binary32 0x00000000#32 = .fin false 0 := by decide

theorem unpack_one : unpack .binary32 0x3F800000#32 = .fin false (2 ^ unitShift .binary32) := by decide

/-- By default `Y_LO` is +0.0 and `YSPAN` is 1.0. -/
theorem rescale_default (v : Volts) :
    rescale Params.default v =
      fadd .binary32 (.fin false 0)
        (fmul .binary32
          (fdiv .binary32 (fsub .binary32 (unpack .binary32 v) (unpack .binary32 0x3DCCCCCD#32))
            (unpack .binary32 0x3FF33333#32))
          (.fin false (2 ^ unitShift .binary32))) := by
  rw [← unpack_zero, ← unpack_one, ← span_default, ← ySpan_default]
  rfl

/-- The divisor `SPAN` is finite, so the quotient `q` is a value of the format. -/
theorem quotient_default_inFormat (d : Fp) :
    (fdiv .binary32 d (unpack .binary32 0x3FF33333#32)).InFormat .binary32 := by
  obtain ⟨t, k, h⟩ : ∃ t k, unpack .binary32 0x3FF33333#32 = .fin t k := ⟨_, _, rfl⟩
  rw [h]
  exact fdiv_fin_inFormat _ _ _ _

/-! ### Comparisons and the threshold tests (00_scope.md R9, 40_comparator_ops.md R55 to R57) -/

theorem flt_zero_left (s t : Bool) (x : Fp) : flt (.fin s 0) x = flt (.fin t 0) x := by
  cases x <;> simp [flt]

theorem flt_zero_right (s t : Bool) (x : Fp) : flt x (.fin s 0) = flt x (.fin t 0) := by
  cases x <;> simp [flt]

theorem fle_zero_left (s t : Bool) (x : Fp) : fle (.fin s 0) x = fle (.fin t 0) x := by
  cases x <;> simp [fle]

theorem fle_zero_right (s t : Bool) (x : Fp) : fle x (.fin s 0) = fle x (.fin t 0) := by
  cases x <;> simp [fle]

theorem not_isNaN_of_flt {a b : Fp} (h : flt a b = true) : isNaN a = false ∧ isNaN b = false := by
  cases a <;> cases b <;> simp_all [flt, isNaN]

theorem fle_eq_false_of_flt {a b : Fp} (h : flt a b = true) : fle b a = false := by
  obtain ⟨ha, hb⟩ := not_isNaN_of_flt h
  simpa [flt_eq_not_fle ha hb] using h

theorem fle_of_flt {a b : Fp} (h : flt a b = true) : fle a b = true := by
  cases a with
  | nan => cases h
  | inf s => cases b with
    | nan => cases h
    | inf t => simp_all [flt, fle]
    | fin t n => exact h
  | fin s m => cases b with
    | nan => cases h
    | inf t => exact h
    | fin t n => exact decide_eq_true (of_decide_eq_true h).le

/-- Strict or inclusive, `H(u)` puts `u` at or above `T_HI`. -/
theorem tHi_fle_of_aboveHi {p : Params} {u : Fp} (h : aboveHi p u = true) : fle (unpack p.fmt p.tHi) u = true := by
  unfold aboveHi at h
  split at h
  · exact h
  · exact fle_of_flt h

/-- Strict or inclusive, `L(u)` puts `u` at or below `T_LO`. -/
theorem fle_tLo_of_belowLo {p : Params} {u : Fp} (h : belowLo p u = true) : fle u (unpack p.fmt p.tLo) = true := by
  unfold belowLo at h
  split at h
  · exact h
  · exact fle_of_flt h

theorem tLo_flt_tHi_of_legal {p : Params} (h : p.legal = true) :
    flt (unpack p.fmt p.tLo) (unpack p.fmt p.tHi) = true := by
  simp only [Params.legal, risingPair, Bool.and_eq_true] at h
  exact h.2.2

/-- `T_HI ≤ u ≤ T_LO` would contradict `T_LO < T_HI`. -/
theorem not_aboveHi_and_belowLo {p : Params} (u : Fp) (hp : p.legal = true) :
    ¬ (aboveHi p u = true ∧ belowLo p u = true) := by
  rintro ⟨hH, hL⟩
  have hle := fle_trans (tHi_fle_of_aboveHi hH) (fle_tLo_of_belowLo hL)
  simp [fle_eq_false_of_flt (tLo_flt_tHi_of_legal hp)] at hle

theorem transition_of_rise {p : Params} {u : Fp} (h : aboveHi p u = true) : transition p false u = (true, true) :=
  if_pos ⟨rfl, h⟩

theorem transition_of_fall {p : Params} {u : Fp} (h : belowLo p u = true) : transition p true u = (false, false) := by
  simp [transition, h]

theorem transition_of_neither {p : Params} {w : Bool} {u : Fp} (hr : ¬ (w = false ∧ aboveHi p u = true))
    (hf : ¬ (w = true ∧ belowLo p u = true)) : transition p w u = (w, false) := by
  rw [transition, if_neg hr, if_neg hf]

/-! ### A tick as one function of the state and the word (40_comparator_ops.md R65) -/

theorem completeStep_of_reset (p : Params) (w : Bool) {cmd : Word} (h : decode cmd = .reset) :
    completeStep p w cmd = (p.resetValue, false, w) :=
  if_pos (decode_eq_reset_iff.1 h)

theorem completeStep_of_hold (p : Params) (w : Bool) {cmd : Word} (h : decode cmd = .hold) :
    completeStep p w cmd = (w, false, w) := by
  obtain ⟨hr, hc⟩ : cmd.getLsbD 33 = false ∧ cmd.getLsbD 32 = false := decode_eq_hold_iff.1 h
  rw [completeStep, if_neg (Bool.eq_false_iff.1 hr), if_pos hc]

/-- On a STEP the complete step function is the transition function of the rescaled operand. -/
theorem completeStep_of_step (p : Params) (w : Bool) {cmd : Word} {v : Volts} (h : decode cmd = .step v) :
    completeStep p w cmd = ((transition p w (rescale p v)).1, (transition p w (rescale p v)).2, w) := by
  obtain ⟨hr, hc, rfl⟩ : cmd.getLsbD 33 = false ∧ cmd.getLsbD 32 = true ∧ vinField cmd = v := decode_eq_step_iff.1 h
  rw [completeStep, if_neg (Bool.eq_false_iff.1 hr), if_neg (ne_of_eq_of_ne hc (by decide))]
  obtain ⟨hw, hH, e⟩ | ⟨hw, hL, e⟩ | ⟨hH, hL, e⟩ := transition_cases p w (rescale p (vinField cmd)) <;> rw [e]
  · exact if_pos ⟨hw, hH⟩
  · exact (if_neg (by simp [hw])).trans (if_pos ⟨hw, hL⟩)
  · exact (if_neg hH).trans (if_neg hL)

theorem completeStep_high (p : Params) (w : Bool) (cmd : Word) : (completeStep p w cmd).2.2 = w := by
  cases h : decode cmd with
  | reset => rw [completeStep_of_reset p w h]
  | step v => rw [completeStep_of_step p w h]
  | hold => rw [completeStep_of_hold p w h]

/-- The state after a tick of `cmd` from `s`. -/
def afterTick (s : State) (cmd : Word) : State :=
  finishTick s (completeStep s.params s.wasHigh cmd).1 (completeStep s.params s.wasHigh cmd).2.1

theorem tick_eq_afterTick (cmd : Word) (s : State) : tick cmd s = .next (afterTick s cmd) := by
  unfold tick afterTick
  cases h : decode cmd with
  | reset => rw [completeStep_of_reset _ _ h]; rfl
  | step v => rw [completeStep_of_step _ _ h]; rfl
  | hold => rw [completeStep_of_hold _ _ h]; rfl

@[simp] theorem afterTick_params (s : State) (cmd : Word) : (afterTick s cmd).params = s.params := rfl
@[simp] theorem afterTick_wasHigh (s : State) (cmd : Word) :
    (afterTick s cmd).wasHigh = (completeStep s.params s.wasHigh cmd).1 := rfl
@[simp] theorem afterTick_out (s : State) (cmd : Word) :
    (afterTick s cmd).out = some { fire := (completeStep s.params s.wasHigh cmd).2.1, high := s.wasHigh } := rfl

theorem afterTick_reset (s : State) {cmd : Word} (h : decode cmd = .reset) :
    afterTick s cmd = finishTick s s.params.resetValue false := by
  rw [afterTick, completeStep_of_reset _ _ h]

theorem afterTick_hold (s : State) {cmd : Word} (h : decode cmd = .hold) :
    afterTick s cmd = finishTick s s.wasHigh false := by
  rw [afterTick, completeStep_of_hold _ _ h]

/-- A tick overwrites the outputs of the tick before it, and HOLD writes nothing else: it is invisible after the next
tick (40_comparator_ops.md R63). -/
theorem afterTick_afterTick_hold (s : State) {h : Word} (hh : decode h = .hold) (cmd : Word) :
    afterTick (afterTick s h) cmd = afterTick s cmd := by
  rw [afterTick_hold s hh]
  rfl

/-! ### A run of commands, tick by tick (70_reset_and_hazards.md R106) -/

theorem runCommands_nil (s : State) : runCommands [] s = .next { trace := [], final := setMoves s [] } := rfl

/-- A run of commands is its first tick, then the run of the others. -/
theorem runCommands_cons {s : State} {c : Word} {cs : List Word} {r : RunRecord}
    (h : runCommands cs (afterTick s c) = .next r) :
    runCommands (c :: cs) s = .next (RunRecord.after (afterTick s c) r) := by
  have hstep : step (setMoves s (.tick c :: cs.map .tick)) = .next (setMoves (afterTick s c) (cs.map .tick)) := by
    rw [step_of_moves (setMoves_moves _ _), hostMove, tick_eq_afterTick]
    rfl
  exact runSteps_succ (t := setMoves (afterTick s c) (cs.map .tick)) hstep h

/-- Any number of HOLDs hold the state bit, and each tick shows it (40_comparator_ops.md R63). -/
theorem runCommands_holds (s : State) (cmds : List Word) (h : ∀ c ∈ cmds, decode c = .hold) :
    ∃ r, runCommands cmds s = .next r ∧ r.final.wasHigh = s.wasHigh ∧
      r.trace = List.replicate cmds.length { fire := false, high := s.wasHigh } := by
  induction cmds generalizing s with
  | nil => exact ⟨_, runCommands_nil s, rfl, rfl⟩
  | cons c cs ih =>
    obtain ⟨hc, hcs⟩ := List.forall_mem_cons.1 h
    obtain ⟨r, hr, hfinal, htrace⟩ := ih (afterTick s c) hcs
    refine ⟨_, runCommands_cons hr, ?_⟩
    rw [afterTick_hold s hc] at hfinal htrace ⊢
    simp_all [List.replicate_succ]

end Machine

open Sys2Proof.Machine

/-- Settles O10: the formula is the definition; multiplying by 1.0 and adding to +0.0 lose nothing but a zero's sign. -/
theorem rescaleFormula : Obligations.RescaleFormula := by
  refine ⟨fun _ _ => rfl, span_default, ySpan_default, fun v q hq => ?_, fun s t x =>
    ⟨flt_zero_left s t x, flt_zero_right s t x, fle_zero_left s t x, fle_zero_right s t x⟩⟩
  have hformat : q.InFormat .binary32 := hq ▸ quotient_default_inFormat _
  rw [rescale_default, ← hq, fmul_one hformat]
  exact zero_fadd hformat

/-- Settles O14: the three branches, and the thresholds of a legal set, which keep the two tests apart. -/
theorem transitionFollowsThresholds : Obligations.TransitionFollowsThresholds :=
  ⟨fun _ _ => transition_of_rise, fun _ _ => transition_of_fall, fun _ _ _ => transition_of_neither,
    fun _ => not_aboveHi_and_belowLo⟩

/-- Settles O17: HOLD rewrites the state bit with itself, and the next tick overwrites its outputs. -/
theorem holdCommandResult : Obligations.HoldCommandResult := by
  refine fun s => ⟨rfl, fun cmd hr hc => ?_, runCommands_holds s, fun a h b hh => ?_, fun cmd hh => ?_, fun hw => ?_⟩
  · rw [tick, decode_eq_hold_iff.2 ⟨hr, hc⟩]
  · refine ⟨_, _, runCommands_cons (runCommands_cons (runCommands_cons (runCommands_nil _))),
      runCommands_cons (runCommands_cons (runCommands_nil _)), ?_⟩
    simp [afterTick_afterTick_hold _ hh]
  · rw [endsInterval, hh]
  · have h0 : decode 0x000000000#34 = .hold := by decide
    rw [tick_eq_afterTick, afterTick_hold s h0, finishTick, hw]

/-- Settles O18: RESET writes `RESET_VALUE`; where that is 0, the STEP after it rises from 0. -/
theorem resetCommandResult : Obligations.ResetCommandResult := by
  refine fun s => ⟨rfl, fun cmd hr => ?_, fun cmd v hr h0 hH => ?_, fun hp hw => ?_⟩
  · rw [tick, decode_eq_reset_iff.2 hr]
  · have hreset : decode cmd = .reset := decode_eq_reset_iff.2 hr
    refine ⟨_, runCommands_cons (runCommands_cons (runCommands_nil _)), by rw [endsInterval, hreset], _, rfl, ?_⟩
    simp [completeStep_of_reset _ _ hreset, completeStep_of_step _ _ (decode_encode_step v), h0, transition_of_rise hH]
  · have h2 : decode 0x200000000#34 = .reset := by decide
    have hv : s.params.resetValue = false := by rw [hp]; rfl
    rw [tick_eq_afterTick, afterTick_reset s h2, finishTick, hv, hw]

/-- Settles O23: the decoder reads the bits the complete step function branches on. -/
theorem tickIsCompleteStep : Obligations.TickIsCompleteStep := by
  intro s cmd
  rw [tick_eq_afterTick, completeStep_high]
  rfl

end Sys2Proof
end

section
/-! PROOF. The statement of the exceptions family: `rst` and `conn` asserted in one tick (60_exceptions.md R87). -/

namespace Sys2Proof

open Sys2Proof.Machine

/-- Settles O19: `rst` alone selects RESET, so the tick is that of any RESET word and `conn` is never looked at. -/
theorem resetWinsOverConn : Obligations.ResetWinsOverConn := by
  intro s cmd hrst _
  have hreset : decode cmd = .reset := decode_eq_reset_iff.2 hrst
  refine ⟨hreset, ?_⟩
  rw [tick_eq_afterTick, afterTick_reset s hreset, finishTick]

end Sys2Proof
end

section
/-! PROOF. The opcode map's masks in terms of the two control bits, and that a command's canonical word decodes to it;
then the statements about decoding that the encoding family left. -/

namespace Sys2Proof

/-! ### The masks of the opcode map (30_encoding.md R42 to R44) -/

theorem and_resetMask (w : Word) : w &&& 0x200000000#34 = if rstBit w then 0x200000000#34 else 0#34 :=
  BitVec.and_twoPow w 33

theorem and_stepMask (w : Word) :
    w &&& 0x300000000#34 =
      (if rstBit w then 0x200000000#34 else 0#34) ||| (if connBit w then 0x100000000#34 else 0#34) := by
  have hmask : 0x300000000#34 = 0x200000000#34 ||| BitVec.twoPow 34 32 := by decide
  rw [hmask, BitVec.and_or_distrib_left, and_resetMask, BitVec.and_twoPow]
  rfl

theorem resetMask_iff (w : Word) : w &&& 0x200000000#34 = 0x200000000#34 ↔ rstBit w = true := by
  rw [and_resetMask]
  cases rstBit w <;> decide

theorem stepMask_iff (w : Word) :
    w &&& 0x300000000#34 = 0x100000000#34 ↔ rstBit w = false ∧ connBit w = true := by
  rw [and_stepMask]
  cases rstBit w <;> cases connBit w <;> decide

theorem holdMask_iff (w : Word) :
    w &&& 0x300000000#34 = 0x000000000#34 ↔ rstBit w = false ∧ connBit w = false := by
  rw [and_stepMask]
  cases rstBit w <;> cases connBit w <;> decide

/-- The rows that select a word, each decided by the two control bits. -/
theorem filter_opcodeTable (w : Word) :
    (opcodeTable.filter (fun r => rowSelects r w)).map (fun r => r.mnemonic) = [mnemonicOf (decode w)] := by
  have hreset : (w &&& 0x200000000#34 == 0x200000000#34) = rstBit w :=
    Bool.eq_iff_iff.2 (beq_iff_eq.trans (resetMask_iff w))
  have hstep : (w &&& 0x300000000#34 == 0x100000000#34) = (!rstBit w && connBit w) :=
    Bool.eq_iff_iff.2 (beq_iff_eq.trans ((stepMask_iff w).trans (by simp)))
  have hhold : (w &&& 0x300000000#34 == 0x000000000#34) = (!rstBit w && !connBit w) :=
    Bool.eq_iff_iff.2 (beq_iff_eq.trans ((holdMask_iff w).trans (by simp)))
  simp only [opcodeTable, rowSelects, List.filter_cons, List.filter_nil, hreset, hstep, hhold, decode]
  cases rstBit w <;> cases connBit w <;> rfl

/-! ### Decoding a canonical word (30_encoding.md R51) -/

theorem decode_encode (i : Instr) : decode (encode i) = i := by
  cases i with
  | reset => exact decode_eq_reset_iff.2 (rstBit_portWord ..)
  | step v => exact decode_encode_step v
  | hold => exact decode_eq_hold_iff.2 ⟨rstBit_portWord .., connBit_portWord ..⟩

/-- Settles O3: the ports of a canonical word give its command back, and words that decode alike differ in ignored bits
only. -/
theorem decodeOfEncodeIsIdentity : Obligations.DecodeOfEncodeIsIdentity :=
  ⟨fun i _ => decode_encode i, fun w => (sameCaredBits_iff_decode_eq _ _).2 (decode_encode (decode w))⟩

/-- Settles O2: each row's mask asks for one value of the control bits, and these are the decoder's cases. -/
theorem opcodeRowsPartitionTheWords : Obligations.OpcodeRowsPartitionTheWords := by
  refine fun w => ⟨filter_opcodeTable w, ?_, fun v => ?_, ?_⟩
  · rw [resetMask_iff, decode_eq_reset_iff]
  · rw [stepMask_iff, decode_eq_step_iff, and_assoc, eq_comm (a := v)]
    rfl
  · rw [holdMask_iff, decode_eq_hold_iff]

/-- Settles O5: six fixed words through the decoder. -/
theorem sampleWordsDecode : Obligations.SampleWordsDecode := by
  unfold Obligations.SampleWordsDecode
  decide

end Sys2Proof
end

section
/-! PROOF. What each host move does to the state, what a tick's complete step function can do to the state bit, and the
tests of a parameter set; then the statements about commands, steps, power and elaboration. -/

namespace Sys2Proof

namespace Machine

/-! ### A step, by the host's next move (70_reset_and_hazards.md R107) -/

theorem step_of_no_move {s : State} (h : s.moves = []) : step s = .next (noEdge s) := by
  rw [step, nextMove, h]

theorem step_of_tick {s : State} {cmd : Word} {rest : List HostMove} (h : s.moves = .tick cmd :: rest) :
    step s = .next (afterTick (setMoves s rest) cmd) :=
  (step_of_moves h).trans (tick_eq_afterTick cmd _)

theorem step_answers (s : State) : ∃ t, step s = .next t := by
  match h : s.moves with
  | [] => exact ⟨_, step_of_no_move h⟩
  | .tick cmd :: rest => exact ⟨_, step_of_tick h⟩
  | .stopClock :: rest => exact ⟨_, step_of_moves h⟩
  | .powerOn :: rest => exact ⟨_, step_of_moves h⟩

theorem eq_afterTick_of_tick {cmd : Word} {s t : State} (h : tick cmd s = .next t) : t = afterTick s cmd := by
  rw [tick_eq_afterTick] at h
  exact (Host.Outcome.next.inj h).symm

@[simp] theorem afterTick_moves (s : State) (cmd : Word) : (afterTick s cmd).moves = s.moves := rfl
@[simp] theorem afterTick_powerOns (s : State) (cmd : Word) : (afterTick s cmd).powerOns = s.powerOns := rfl

theorem execStep_eq (s : State) (v : Volts) :
    exec (.step v) s = .next (finishTick s (transition s.params s.wasHigh (rescale s.params v)).1
      (transition s.params s.wasHigh (rescale s.params v)).2) := rfl

/-! ### Edges and falls of the complete step function (40_comparator_ops.md section 3) -/

/-- `fire` is 1 exactly in a STEP from 0 to 1. -/
theorem completeStep_fire_iff (p : Params) (w : Bool) (cmd : Word) :
    (completeStep p w cmd).2.1 = true ↔
      (∃ v, decode cmd = .step v) ∧ w = false ∧ (completeStep p w cmd).1 = true := by
  cases h : decode cmd with
  | reset => simp [completeStep_of_reset p w h]
  | hold => simp [completeStep_of_hold p w h]
  | step v =>
    rw [completeStep_of_step p w h]
    obtain ⟨hw, -, e⟩ | ⟨hw, -, e⟩ | ⟨-, -, e⟩ := transition_cases p w (rescale p v) <;> simp [e]
    exact hw

/-- A command that is no RESET and takes no fall keeps a high state and does not fire. -/
theorem completeStep_of_cannotFall {p : Params} {cmd : Word} (h : cannotFall p cmd = true) :
    completeStep p true cmd = (true, false, true) := by
  unfold cannotFall at h
  cases hd : decode cmd with
  | reset => simp [hd] at h
  | hold => exact completeStep_of_hold p true hd
  | step v =>
    have hL : belowLo p (rescale p v) = false := by simpa [hd] using h
    rw [completeStep_of_step p true hd, transition_of_neither (by simp) (by simp [hL])]

/-- A command that is no RESET and takes no rising edge keeps a low state and does not fire. -/
theorem completeStep_of_cannotRise {p : Params} {cmd : Word} (h : cannotRise p cmd = true) :
    completeStep p false cmd = (false, false, false) := by
  unfold cannotRise at h
  cases hd : decode cmd with
  | reset => simp [hd] at h
  | hold => exact completeStep_of_hold p false hd
  | step v =>
    have hH : aboveHi p (rescale p v) = false := by simpa [hd] using h
    rw [completeStep_of_step p false hd, transition_of_neither (by simp [hH]) (by simp)]

/-- With a legal set the two threshold tests exclude each other, so the operand that took a transition takes none from
where it led. -/
theorem transition_again {p : Params} (hp : p.legal = true) (w : Bool) (u : Fp) :
    transition p (transition p w u).1 u = ((transition p w u).1, false) := by
  obtain ⟨-, hH, e⟩ | ⟨-, hL, e⟩ | ⟨hr, hf, e⟩ := transition_cases p w u <;> rw [e]
  · exact transition_of_neither (by simp) (fun h => not_aboveHi_and_belowLo u hp ⟨hH, h.2⟩)
  · exact transition_of_neither (fun h => not_aboveHi_and_belowLo u hp ⟨h.2, hL⟩) (by simp)
  · exact e

/-! ### Comparisons of finite values, and the checks of a parameter set (00_scope.md R6, R9) -/

theorem flt_fin_iff (f : Format) (s t : Bool) (a b : Nat) :
    flt (.fin s a) (.fin t b) = true ↔ fpValue f (.fin s a) < fpValue f (.fin t b) := by
  simp only [flt, fpValue, decide_eq_true_eq]
  rw [div_lt_div_iff_of_pos_right (by positivity), Int.cast_lt]

theorem fle_fin_iff (f : Format) (s t : Bool) (a b : Nat) :
    fle (.fin s a) (.fin t b) = true ↔ fpValue f (.fin s a) ≤ fpValue f (.fin t b) := by
  simp only [fle, fpValue, decide_eq_true_eq]
  rw [div_le_div_iff_of_pos_right (by positivity), Int.cast_le]

theorem isFinite_iff {x : Fp} : isFinite x = true ↔ ∃ s m, x = .fin s m := by
  cases x <;> simp [isFinite]

theorem fitsPort_iff (f : Format) :
    fitsPort f = true ↔ 2 ≤ f.expBits ∧ 1 ≤ f.fracBits ∧ f.expBits + f.fracBits = 31 := by
  simp [fitsPort, and_assoc]

theorem risingPair_iff (f : Format) (lo hi : Volts) :
    risingPair f lo hi = true ↔
      ∃ s a t b, unpack f lo = .fin s a ∧ unpack f hi = .fin t b ∧
        fpValue f (.fin s a) < fpValue f (.fin t b) := by
  simp only [risingPair, Bool.and_eq_true, isFinite_iff]
  constructor
  · rintro ⟨⟨⟨s, a, hlo⟩, t, b, hhi⟩, hlt⟩
    rw [hlo, hhi] at hlt
    exact ⟨s, a, t, b, hlo, hhi, (flt_fin_iff f s t a b).1 hlt⟩
  · rintro ⟨s, a, t, b, hlo, hhi, hlt⟩
    rw [hlo, hhi]
    exact ⟨⟨⟨s, a, rfl⟩, t, b, rfl⟩, (flt_fin_iff f s t a b).2 hlt⟩

theorem legal_iff (p : Params) :
    p.legal = true ↔ fitsPort p.fmt = true ∧ risingPair p.fmt p.vLo p.vHi = true ∧
      risingPair p.fmt p.yLo p.yHi = true ∧ risingPair p.fmt p.tLo p.tHi = true := by
  simp [Params.legal, and_assoc]

/-- A difference of two finite values that differ is no zero: its exact value is at least one unit, and rounding keeps
it from 0. -/
theorem fsub_ne_zero {f : Format} {x y : Fp} (hx : isFinite x = true) (hy : isFinite y = true)
    (h : flt x y = true) (s : Bool) : fsub f y x ≠ .fin s 0 := by
  obtain ⟨s₁, a, rfl⟩ := isFinite_iff.1 hx
  obtain ⟨s₂, b, rfl⟩ := isFinite_iff.1 hy
  have hlt : signedMag s₁ a < signedMag s₂ b := by simpa [flt] using h
  have hneg : signedMag (!s₁) a = -signedMag s₁ a := by cases s₁ <;> simp [signedMag]
  have hz : signedMag s₂ b + signedMag (!s₁) a ≠ 0 := by omega
  simp only [fsub, fneg, fadd, roundSum, if_neg hz]
  obtain ⟨-, e⟩ | ⟨-, e⟩ := roundTo_cases f (decide (signedMag s₂ b + signedMag (!s₁) a < 0))
      (signedMag s₂ b + signedMag (!s₁) a).natAbs 1 <;> rw [e]
  · intro he
    exact roundMag_ne_zero (Int.natAbs_ne_zero.2 hz) (Fp.fin.inj he).2
  · exact Fp.noConfusion

theorem fsub_ne_zero_of_risingPair {f : Format} {lo hi : Volts} (h : risingPair f lo hi = true) (s : Bool) :
    fsub f (unpack f hi) (unpack f lo) ≠ .fin s 0 := by
  simp only [risingPair, Bool.and_eq_true] at h
  obtain ⟨⟨hlo, hhi⟩, hlt⟩ := h
  exact fsub_ne_zero hlo hhi hlt s

/-! ### The hysteresis band (40_comparator_ops.md section 1) -/

theorem flt_eq_false_iff {a b : Fp} (ha : isNaN a = false) (hb : isNaN b = false) :
    flt a b = false ↔ fle b a = true := by
  rw [flt_eq_not_fle ha hb, Bool.not_eq_false']

/-- By default neither test holds of a NaN and of the values from `T_LO` to `T_HI`. -/
theorem band_default (u : Fp) :
    (aboveHi Params.default u = false ∧ belowLo Params.default u = false) ↔
      (isNaN u = true ∨
        (fle (unpack .binary32 0x00000000#32) u = true ∧ fle u (unpack .binary32 0x3F800000#32) = true)) := by
  cases hu : isNaN u with
  | true => simp [isNaN_iff.1 hu]
  | false =>
    have hH : aboveHi Params.default u = flt (unpack .binary32 0x3F800000#32) u := rfl
    have hL : belowLo Params.default u = flt u (unpack .binary32 0x00000000#32) := rfl
    rw [hH, hL, flt_eq_false_iff (by decide) hu, flt_eq_false_iff hu (by decide), and_comm]
    simp

end Machine

open Sys2Proof.Machine

/-- Settles O31: no move writes the parameters, and a tick fires only from 0 to 1. -/
theorem stepKeepsInvariant : Obligations.StepKeepsInvariant := by
  rintro s t ⟨hlegal, -⟩ h
  obtain ⟨-, rfl⟩ | ⟨rest, -, rfl⟩ | ⟨rest, -, rfl⟩ | ⟨cmd, rest, -, htick⟩ := step_cases h
  · exact ⟨hlegal, by simp⟩
  · exact ⟨hlegal, by simp⟩
  · exact ⟨hlegal, by simp⟩
  · obtain rfl := eq_afterTick_of_tick htick
    refine ⟨hlegal, fun o ho hfire => ?_⟩
    obtain rfl := Option.some.inj ho
    obtain ⟨-, hlow, hhigh⟩ := (completeStep_fire_iff _ _ cmd).1 hfire
    exact ⟨hlow, hhigh⟩

/-- Settles O52: without an edge the state is held, and of the ticks only a falling STEP and a RESET to 0 leave a high
state. -/
theorem highIntervalContinues : Obligations.HighIntervalContinues := by
  intro s t hhigh hpower htick h
  obtain ⟨-, rfl⟩ | ⟨rest, -, rfl⟩ | ⟨rest, hm, rfl⟩ | ⟨cmd, rest, hm, ht⟩ := step_cases h
  · exact ⟨hhigh, by simp⟩
  · exact ⟨hhigh, by simp⟩
  · exact absurd (congrArg List.head? hm) hpower
  · obtain rfl := eq_afterTick_of_tick ht
    have hcmd : completeStep s.params true cmd = (true, false, true) := by
      obtain hfall | ⟨hreset, hone⟩ := htick cmd (congrArg List.head? hm)
      · exact completeStep_of_cannotFall hfall
      · rw [completeStep_of_reset _ _ hreset, hone]
    simp [hhigh, hcmd]

/-- Settles O16: the three cases of the transition, written into the state. -/
theorem stepCommandResult : Obligations.StepCommandResult := by
  refine fun s v => ⟨fun hw hH => ?_, fun hw hL => ?_, fun hr hf => ?_⟩
  · rw [execStep_eq, hw, transition_of_rise hH, finishTick, hw]
  · rw [execStep_eq, hw, transition_of_fall hL, finishTick, hw]
  · rw [execStep_eq, transition_of_neither hr hf, finishTick]

/-- Settles O15: each span is the difference of two finite values in rising order. -/
theorem spanIsNeverZero : Obligations.SpanIsNeverZero := by
  intro p s hp
  obtain ⟨-, hv, hy, -⟩ := (legal_iff p).1 hp
  exact ⟨fsub_ne_zero_of_risingPair hv s, fsub_ne_zero_of_risingPair hy s⟩

/-- Settles O28: the checks of a set read as comparisons of values, and elaboration branches on them alone. -/
theorem elaborationRefusesIllegalSets : Obligations.ElaborationRefusesIllegalSets := by
  refine ⟨fun p => ?_, fun p draw => ⟨fun hp => ?_, fun hp => ?_⟩⟩
  · rw [legal_iff, fitsPort_iff, risingPair_iff, risingPair_iff, risingPair_iff]
  · obtain ⟨-, e⟩ | ⟨hn, -⟩ := elaborate_cases p draw
    · exact ⟨_, e, rfl, rfl, hp, by simp⟩
    · simp [hp] at hn
  · obtain ⟨hn, -⟩ | ⟨-, e⟩ := elaborate_cases p draw
    · simp [hp] at hn
    · exact e

/-- Settles O29: field by field, for each of the four host moves. -/
theorem stepFrame : Obligations.StepFrame := by
  intro s t h
  obtain ⟨hm, rfl⟩ | ⟨rest, hm, rfl⟩ | ⟨rest, hm, rfl⟩ | ⟨cmd, rest, hm, htick⟩ := step_cases h
  · simp [hm]
  · simp [hm]
  · simp [hm]
  · obtain rfl := eq_afterTick_of_tick htick
    simp [hm]

/-- Settles O32: the state's tick is the complete step function, whose edge is a STEP from 0 to 1. -/
theorem fireIsExactlyARisingStep : Obligations.FireIsExactlyARisingStep := by
  intro cmd s t h
  obtain rfl := eq_afterTick_of_tick h
  exact ⟨_, afterTick_out s cmd, rfl, completeStep_fire_iff _ _ _⟩

/-- Settles O33: with neither test there is no transition, and by default the band is the closed interval and NaN. -/
theorem hysteresisBandKeepsState : Obligations.HysteresisBandKeepsState := by
  refine ⟨fun s v hH hL => ?_, band_default⟩
  rw [execStep_eq, transition_of_neither (by simp [hH]) (by simp [hL]), finishTick]

/-- Settles O34: RESET and HOLD write the same value again, and a STEP takes no second transition. -/
theorem repeatedCommandIsIdempotent : Obligations.RepeatedCommandIsIdempotent := by
  intro i s t hp h
  cases i with
  | reset =>
    obtain rfl := Host.Outcome.next.inj h
    exact ⟨_, rfl, rfl, rfl⟩
  | hold =>
    obtain rfl := Host.Outcome.next.inj h
    exact ⟨_, rfl, rfl, rfl⟩
  | step v =>
    obtain rfl := Host.Outcome.next.inj h
    refine ⟨_, execStep_eq _ v, ?_⟩
    simp [transition_again hp]

/-- Settles O20: RESET writes `RESET_VALUE`. -/
theorem resetLeavesResetValue : Obligations.ResetLeavesResetValue :=
  ⟨fun _ => ⟨_, rfl, rfl⟩, rfl, rfl⟩

/-- Settles O22: every command ends in `finishTick`, which writes the state bit and the outputs alone. -/
theorem commandFrame : Obligations.CommandFrame := by
  intro i s t h
  obtain ⟨w', fire, e, -⟩ := exec_ends_tick i s
  obtain rfl := Host.Outcome.next.inj (e.symm.trans h)
  exact ⟨rfl, rfl, rfl, fire, rfl⟩

/-- Settles O24: every command ends its tick, and every host move has an answer. -/
theorem nothingStopsTheBlock : Obligations.NothingStopsTheBlock := by
  refine ⟨step_answers, fun i s => ?_, tick_answers, ⟨fun e => nomatch e⟩⟩
  obtain ⟨_, _, e, -⟩ := exec_ends_tick i s
  exact ⟨_, e⟩

/-- Settles O25: a tick hands the decoded command to `exec`. -/
theorem stepRunsTheDecodedCommand : Obligations.StepRunsTheDecodedCommand := fun _ _ _ => step_of_moves

/-- Settles O26: a stopped clock clears the outputs alone, and the next tick overwrites them. -/
theorem stoppedClockHoldsState : Obligations.StoppedClockHoldsState :=
  fun _ _ => ⟨step_of_no_move, step_of_moves, fun _ h => ⟨_, _, step_of_moves h, step_of_tick rfl, step_of_tick rfl⟩⟩

/-- Settles O27: the host's power-on is `drawPowerOn`. -/
theorem powerOnTakesTheDraw : Obligations.PowerOnTakesTheDraw := fun _ _ => step_of_moves

/-- Settles O30: the default set is legal, and no tick has been taken. -/
theorem resetMeetsInvariant : Obligations.ResetMeetsInvariant :=
  ⟨by decide, fun _ h => nomatch h⟩

end Sys2Proof
end

section
/-! PROOF. The complete step function folded over a list of commands, and the run as that fold; then the statements
about runs, about a reset, and about the power-on draw. -/

namespace Sys2Proof

open Sys2Proof.Machine

/-! ### The fold over a list of commands (00_scope.md R10, R11) -/

/-- What tick a command `c` shows from the state bit `w`. -/
def tickOutputs (p : Params) (w : Bool) (c : Word) : Outputs := { fire := (completeStep p w c).2.1, high := w }

@[simp] theorem foldCompleteStep_nil (p : Params) (w : Bool) : foldCompleteStep p w [] = ([], w) := rfl

@[simp] theorem foldCompleteStep_cons (p : Params) (w : Bool) (c : Word) (cs : List Word) :
    foldCompleteStep p w (c :: cs) =
      (tickOutputs p w c :: (foldCompleteStep p (completeStep p w c).1 cs).1,
        (foldCompleteStep p (completeStep p w c).1 cs).2) := by
  rw [foldCompleteStep, completeStep_high, tickOutputs]

theorem foldCompleteStep_append (p : Params) (w : Bool) (as bs : List Word) :
    foldCompleteStep p w (as ++ bs) =
      ((foldCompleteStep p w as).1 ++ (foldCompleteStep p (foldCompleteStep p w as).2 bs).1,
        (foldCompleteStep p (foldCompleteStep p w as).2 bs).2) := by
  induction as generalizing w with
  | nil => simp
  | cons a as ih => simp [ih]

@[simp] theorem length_foldCompleteStep (p : Params) (w : Bool) (cs : List Word) :
    (foldCompleteStep p w cs).1.length = cs.length := by
  induction cs generalizing w with
  | nil => rfl
  | cons c cs ih => simp [ih]

/-- The state bit after the first `n` commands. -/
def stateBefore (p : Params) (w : Bool) (cs : List Word) (n : Nat) : Bool := (foldCompleteStep p w (cs.take n)).2

theorem stateBefore_succ {cs : List Word} {n : Nat} {c : Word} (h : cs[n]? = some c) (p : Params) (w : Bool) :
    stateBefore p w cs (n + 1) = (completeStep p (stateBefore p w cs n) c).1 := by
  simp [stateBefore, List.take_add_one, h, foldCompleteStep_append]

/-- Tick `n` shows its command's outputs from the state the first `n` commands left (40_comparator_ops.md R61). -/
theorem foldCompleteStep_getElem? (p : Params) (w : Bool) (cs : List Word) (n : Nat) :
    (foldCompleteStep p w cs).1[n]? = cs[n]?.map (tickOutputs p (stateBefore p w cs n)) := by
  induction cs generalizing w n with
  | nil => simp
  | cons c cs ih =>
    cases n with
    | zero => simp [stateBefore]
    | succ n => simp [ih, stateBefore]

/-- Commands none of which moves the state bit `w` or fires leave it, and each tick shows it. -/
theorem foldCompleteStep_of_fixed {p : Params} {w : Bool} {cs : List Word}
    (h : ∀ c ∈ cs, completeStep p w c = (w, false, w)) :
    foldCompleteStep p w cs = (List.replicate cs.length { fire := false, high := w }, w) := by
  induction cs with
  | nil => rfl
  | cons c cs ih =>
    obtain ⟨hc, hcs⟩ := List.forall_mem_cons.1 h
    simp [hc, ih hcs, tickOutputs, List.replicate_succ]

theorem foldCompleteStep_of_holds (p : Params) (w : Bool) {cs : List Word} (h : ∀ c ∈ cs, decode c = .hold) :
    foldCompleteStep p w cs = (List.replicate cs.length { fire := false, high := w }, w) :=
  foldCompleteStep_of_fixed fun c hc => completeStep_of_hold p w (h c hc)

/-- However many they are, RESETs leave `RESET_VALUE` (70_reset_and_hazards.md section 1). -/
theorem foldCompleteStep_of_resets (p : Params) (w : Bool) {cs : List Word} (hne : cs ≠ [])
    (h : ∀ c ∈ cs, decode c = .reset) : (foldCompleteStep p w cs).2 = p.resetValue := by
  induction cs generalizing w with
  | nil => exact absurd rfl hne
  | cons c cs ih =>
    obtain ⟨hc, hcs⟩ := List.forall_mem_cons.1 h
    rw [foldCompleteStep_cons, completeStep_of_reset p w hc]
    cases cs with
    | nil => rfl
    | cons d ds => exact ih p.resetValue (List.cons_ne_nil d ds) hcs

/-- HOLDs neither move the state bit nor show in the outputs of the connected ticks (10_state.md section 4). -/
theorem foldCompleteStep_filter_isConnected (p : Params) (w : Bool) (cs : List Word) :
    foldCompleteStep p w (cs.filter isConnected) =
      (connectedOutputs cs (foldCompleteStep p w cs).1, (foldCompleteStep p w cs).2) := by
  induction cs generalizing w with
  | nil => rfl
  | cons c cs ih =>
    cases hc : isConnected c with
    | true => simp [hc, ih, connectedOutputs]
    | false =>
      have hhold : decode c = .hold := by simpa [isConnected] using hc
      simp [hc, ih, connectedOutputs, completeStep_of_hold p w hhold]

/-! ### A run of commands is the fold (70_reset_and_hazards.md R106) -/

theorem foldl_afterTick_frame (cs : List Word) (s : State) :
    (cs.foldl afterTick s).wasHigh = (foldCompleteStep s.params s.wasHigh cs).2 ∧
      (cs.foldl afterTick s).params = s.params ∧ (cs.foldl afterTick s).moves = s.moves ∧
      (cs.foldl afterTick s).powerOns = s.powerOns := by
  induction cs generalizing s with
  | nil => simp
  | cons c cs ih => simpa using ih (afterTick s c)

/-- A run's record: the trace of the fold, and the state the ticks lead to, with no move left. -/
theorem runCommands_eq (cs : List Word) (s : State) :
    runCommands cs s = .next { trace := (foldCompleteStep s.params s.wasHigh cs).1
                               final := setMoves (cs.foldl afterTick s) [] } := by
  induction cs generalizing s with
  | nil => rfl
  | cons c cs ih =>
    rw [runCommands_cons (ih (afterTick s c))]
    simp [RunRecord.after, tickOutputs]

/-- A run answers, and its trace and end state bit are the fold's. -/
theorem runCommands_fold (cs : List Word) (s : State) :
    ∃ r, runCommands cs s = .next r ∧ r.trace = (foldCompleteStep s.params s.wasHigh cs).1 ∧
      r.final.wasHigh = (foldCompleteStep s.params s.wasHigh cs).2 :=
  ⟨_, runCommands_eq cs s, rfl, (foldl_afterTick_frame cs s).1⟩

theorem firedAt_iff {r : RunRecord} {p : Params} {w : Bool} {cs : List Word}
    (h : r.trace = (foldCompleteStep p w cs).1) (n : Nat) :
    firedAt r n ↔ ∃ c, cs[n]? = some c ∧ (completeStep p (stateBefore p w cs n) c).2.1 = true := by
  simp [firedAt, h, foldCompleteStep_getElem?, tickOutputs]

/-- A tick fires only from state 0, and leaves state 1. -/
theorem stateBefore_of_firedAt {r : RunRecord} {p : Params} {w : Bool} {cs : List Word} {n : Nat}
    (h : r.trace = (foldCompleteStep p w cs).1) (hfire : firedAt r n) :
    n < cs.length ∧ stateBefore p w cs n = false ∧ stateBefore p w cs (n + 1) = true := by
  obtain ⟨c, hc, hedge⟩ := (firedAt_iff h n).1 hfire
  obtain ⟨-, hlow, hhigh⟩ := (completeStep_fire_iff p _ c).1 hedge
  exact ⟨(List.getElem?_eq_some_iff.1 hc).1, hlow, (stateBefore_succ hc p w).trans hhigh⟩

/-! ### What lies between two edges (40_comparator_ops.md section 3) -/

/-- A bit that is 1 at `a` and 0 later falls in between. -/
theorem exists_fall (b : Nat → Bool) {a j : Nat} (h : a ≤ j) (ha : b a = true) (hj : b j = false) :
    ∃ k, a ≤ k ∧ k < j ∧ b k = true ∧ b (k + 1) = false := by
  induction j, h using Nat.le_induction with
  | base => simp [ha] at hj
  | succ j hle ih =>
    cases hb : b j with
    | true => exact ⟨j, hle, Nat.lt_succ_self j, hb, hj⟩
    | false =>
      obtain ⟨k, hak, hkj, hk⟩ := ih hb
      exact ⟨k, hak, hkj.trans (Nat.lt_succ_self j), hk⟩

/-- Only a RESET to 0 and a falling STEP take the state bit from 1 to 0. -/
theorem endsInterval_of_fall {p : Params} {c : Word} (h : (completeStep p true c).1 = false) :
    endsInterval p c = true ∧ (p.resetValue = true → isFallingStep p c = true) := by
  cases hd : decode c with
  | reset =>
    rw [completeStep_of_reset p true hd] at h
    simp_all [endsInterval]
  | hold => simp [completeStep_of_hold p true hd] at h
  | step v =>
    rw [completeStep_of_step p true hd] at h
    have hL : belowLo p (rescale p v) = true := by
      obtain ⟨hw, -, -⟩ | ⟨-, hL, -⟩ | ⟨-, -, e⟩ := transition_cases p true (rescale p v)
      · cases hw
      · exact hL
      · simp [e] at h
    simp [endsInterval, isFallingStep, hd, hL]

/-- Settles O36: the run's record is the fold's, and a tick writes the state bit and the outputs alone. -/
theorem runIsFoldOfCompleteStep : Obligations.RunIsFoldOfCompleteStep := by
  intro s cs
  obtain ⟨hw, hp, -, hn⟩ := foldl_afterTick_frame cs s
  exact ⟨_, runCommands_eq cs s, Prod.ext rfl hw, hp, rfl, hn⟩

/-- Settles O37: tick `n` of the fold shows the state bit of the fold over the first `n` commands. -/
theorem highShowsStateBeforeTick : Obligations.HighShowsStateBeforeTick := by
  intro s cs n hn
  obtain ⟨r, hr, htrace, -⟩ := runCommands_fold cs s
  obtain ⟨q, hq, -, hfinal⟩ := runCommands_fold (cs.take n) s
  refine ⟨r, q, tickOutputs s.params (stateBefore s.params s.wasHigh cs n) cs[n], hr, hq, ?_, hfinal.symm⟩
  rw [htrace, foldCompleteStep_getElem?, List.getElem?_eq_getElem hn, Option.map_some]

/-- Settles O38: the state bit is 1 after the first edge and 0 before the second, so it falls in between. -/
theorem oneEdgePerHighInterval : Obligations.OneEdgePerHighInterval := by
  intro s cs r hr i j hij hi hj
  obtain ⟨r', hr', htrace, -⟩ := runCommands_fold cs s
  obtain rfl := Host.Outcome.next.inj (hr.symm.trans hr')
  obtain ⟨-, -, hhigh⟩ := stateBefore_of_firedAt htrace hi
  obtain ⟨hlen, hlow, -⟩ := stateBefore_of_firedAt htrace hj
  obtain ⟨k, hik, hkj, hk, hfall⟩ := exists_fall (stateBefore s.params s.wasHigh cs) hij hhigh hlow
  have hc : cs[k]? = some cs[k] := List.getElem?_eq_getElem (hkj.trans hlen)
  rw [stateBefore_succ hc, hk] at hfall
  exact ⟨k, _, hik, hkj, hc, endsInterval_of_fall hfall⟩

/-- Settles O39: the fold without the HOLDs. -/
theorem holdsAreInvisible : Obligations.HoldsAreInvisible := by
  intro s cs
  obtain ⟨r, hr, htrace, hfinal⟩ := runCommands_fold cs s
  obtain ⟨q, hq, htrace', hfinal'⟩ := runCommands_fold (cs.filter isConnected) s
  rw [foldCompleteStep_filter_isConnected] at htrace' hfinal'
  exact ⟨r, q, hr, hq, hfinal.trans hfinal'.symm, by rw [htrace, htrace']⟩

/-- Settles O35: the HOLDs keep what the first STEP left, from where the same operand takes no transition. -/
theorem repeatedStepDoesNotFire : Obligations.RepeatedStepDoesNotFire := by
  intro s v n hp
  obtain ⟨r, hr, htrace, hfinal⟩ :=
    runCommands_fold (encode (.step v) :: (List.replicate n (encode .hold) ++ [encode (.step v)])) s
  have hstep : ∀ w, completeStep s.params w (encode (.step v)) = _ :=
    fun w => completeStep_of_step s.params w (decode_encode_step v)
  have hholds : ∀ c ∈ List.replicate n (encode .hold), decode c = .hold := fun c hc => by
    rw [List.eq_of_mem_replicate hc, decode_encode]
  simp only [foldCompleteStep_cons, foldCompleteStep_append, foldCompleteStep_of_holds _ _ hholds,
    foldCompleteStep_nil, tickOutputs, hstep, transition_again hp] at htrace hfinal
  exact ⟨r, { fire := false, high := (transition s.params s.wasHigh (rescale s.params v)).1 }, hr, by simp [htrace], rfl,
    hfinal⟩

/-! ### Reset and power-on (70_reset_and_hazards.md section 1) -/

/-- Settles O40: a RESET's edge and next state do not depend on the state before it. -/
theorem bootResetRemovesTheDraw : Obligations.BootResetRemovesTheDraw := by
  intro p cmd cs hreset
  obtain ⟨r0, h0, htrace0, hfinal0⟩ := runCommands_fold (cmd :: cs) (powerOnState p false)
  obtain ⟨r1, h1, htrace1, hfinal1⟩ := runCommands_fold (cmd :: cs) (powerOnState p true)
  simp only [foldCompleteStep_cons, powerOnState_params, completeStep_of_reset p _ hreset, tickOutputs]
    at htrace0 hfinal0 htrace1 hfinal1
  exact ⟨r0, r1, h0, h1, by simp [fires, htrace0, htrace1], by simp [htrace0, htrace1], hfinal0.trans hfinal1.symm⟩

/-- Settles O41: the commands before the STEP keep the draw and do not fire; from 0 the STEP rises, from 1 it cannot. -/
theorem drawDecidesTheFirstEdge : Obligations.DrawDecidesTheFirstEdge := by
  intro p before v hH
  have hstep : ∀ w, completeStep p w (encode (.step v)) = _ :=
    fun w => completeStep_of_step p w (decode_encode_step v)
  refine ⟨fun hrise => ?_, fun hfall => ?_⟩
  · obtain ⟨r, hr, htrace, -⟩ := runCommands_fold (before ++ [encode (.step v)]) (powerOnState p false)
    refine ⟨r, hr, ?_⟩
    have hbefore : foldCompleteStep p false before = _ :=
      foldCompleteStep_of_fixed fun c hc => completeStep_of_cannotRise (hrise c hc)
    simp [fires, htrace, foldCompleteStep_append, hbefore, tickOutputs, hstep, transition_of_rise hH]
  · obtain ⟨r, hr, htrace, -⟩ := runCommands_fold (before ++ [encode (.step v)]) (powerOnState p true)
    refine ⟨r, hr, ?_⟩
    have hbefore : foldCompleteStep p true before = _ :=
      foldCompleteStep_of_fixed fun c hc => completeStep_of_cannotFall (hfall c hc)
    have hedge : (transition p true (rescale p v)).2 = false :=
      Bool.eq_false_iff.2 fun h => by simpa using (transition_edge h).1
    simp [fires, htrace, foldCompleteStep_append, hbefore, tickOutputs, hstep, hedge, List.replicate_succ']

/-- Settles O42: the HOLDs keep `RESET_VALUE`, and the STEP's edge is that of the transition from it. -/
theorem firstStepAfterReset : Obligations.FirstStepAfterReset := by
  intro s cmd holds v hreset hholds
  obtain ⟨r, hr, htrace, -⟩ := runCommands_fold (cmd :: (holds ++ [encode (.step v)])) s
  have hbefore : stateBefore s.params s.wasHigh (cmd :: (holds ++ [encode (.step v)])) (holds.length + 1) =
      s.params.resetValue := by
    simp [stateBefore, completeStep_of_reset _ _ hreset, foldCompleteStep_of_holds _ _ hholds]
  have hfired : firedAt r (holds.length + 1) ↔
      (transition s.params s.params.resetValue (rescale s.params v)).2 = true := by
    simp [firedAt_iff htrace, hbefore, completeStep_of_step _ _ (decode_encode_step v)]
  refine ⟨r, hr, fun h0 => ?_, fun h1 hfire => ?_⟩
  · rw [hfired, h0]
    cases hH : aboveHi s.params (rescale s.params v) <;> simp [transition, hH]
  · obtain ⟨hlow, -⟩ := transition_edge (hfired.1 hfire)
    simp [h1] at hlow

/-- A tick reads no outputs, so it ends alike from states that differ in their outputs only. -/
theorem afterTick_congr {s t : State} (hw : s.wasHigh = t.wasHigh) (hp : s.params = t.params)
    (hm : s.moves = t.moves) (hn : s.powerOns = t.powerOns) (cmd : Word) : afterTick s cmd = afterTick t cmd :=
  state_ext (by simp [hw, hp]) (by simp [hw, hp]) hp hm hn

/-- Settles O43: one RESET or several leave `RESET_VALUE`, and the next tick overwrites the outputs, all they differ
in. -/
theorem heldResetIsOneReset : Obligations.HeldResetIsOneReset := by
  intro s resets cmd hne hresets
  have hvalue := foldCompleteStep_of_resets s.params s.wasHigh hne hresets
  obtain ⟨hw, hp, hm, hn⟩ := foldl_afterTick_frame resets s
  refine ⟨_, _, tickOutputs s.params s.params.resetValue cmd, runCommands_eq _ s, runCommands_eq _ s, ?_, ?_, rfl⟩
  · have hone : (afterTick s (encode .reset)).wasHigh = s.params.resetValue := by
      rw [afterTick_reset s (decode_encode .reset), finishTick_wasHigh]
    have hlast : afterTick (resets.foldl afterTick s) cmd = afterTick (afterTick s (encode .reset)) cmd :=
      afterTick_congr (hw.trans (hvalue.trans hone.symm)) hp hm hn cmd
    simp [hlast]
  · rw [foldCompleteStep_getElem?]
    simp [stateBefore, hvalue]

end Sys2Proof
end

section
/-! PROOF. A client's bank of blocks: a command is the tick of one of them; then the statements about the instances. -/

namespace Sys2Proof

open Sys2Proof.Machine

/-! ### Commands to a bank (41_instances_and_clients.md R76, R81) -/

/-- The bank after the block `ic.1` took the command `ic.2`. -/
def bankAfter (b : Bank) (ic : Inst × Word) : Bank := bankSet b ic.1 (afterTick (bankGet b ic.1) ic.2)

theorem bankTick_eq (b : Bank) (i : Inst) (cmd : Word) : bankTick b i cmd = .next (bankAfter b (i, cmd)) := by
  rw [bankTick, tick_eq_afterTick, bankAfter]

theorem bankTicks_eq (l : List (Inst × Word)) (b : Bank) : bankTicks l b = .next (l.foldl bankAfter b) := by
  induction l generalizing b with
  | nil => rfl
  | cons ic l ih => rw [bankTicks, bankTick_eq]; exact ih _

@[simp] theorem bankGet_bankAfter_same (b : Bank) (i : Inst) (cmd : Word) :
    bankGet (bankAfter b (i, cmd)) i = afterTick (bankGet b i) cmd := by
  simp [bankAfter]

theorem bankGet_bankAfter_other (b : Bank) {j : Inst} {ic : Inst × Word} (h : j ≠ ic.1) :
    bankGet (bankAfter b ic) j = bankGet b j :=
  bankGet_bankSet_other b _ h

/-- Commands to two instances commute: each writes its own state. -/
theorem bankAfter_comm (b : Bank) {x y : Inst × Word} (h : x.1 ≠ y.1) :
    bankAfter (bankAfter b x) y = bankAfter (bankAfter b y) x := by
  refine bank_ext fun i => ?_
  by_cases hx : i = x.1
  · subst hx
    rw [bankGet_bankAfter_other _ h, bankGet_bankAfter_same, bankGet_bankAfter_same, bankGet_bankAfter_other _ h]
  · rw [bankGet_bankAfter_other _ hx]
    by_cases hy : i = y.1
    · subst hy
      rw [bankGet_bankAfter_same, bankGet_bankAfter_same, bankGet_bankAfter_other _ hx]
    · rw [bankGet_bankAfter_other _ hy, bankGet_bankAfter_other _ hy, bankGet_bankAfter_other _ hx]

theorem bankGet_foldl_of_not_mem {l : List (Inst × Word)} {i : Inst} (h : i ∉ l.map Prod.fst) (b : Bank) :
    bankGet (l.foldl bankAfter b) i = bankGet b i := by
  induction l generalizing b with
  | nil => rfl
  | cons ic l ih =>
    obtain ⟨hic, hl⟩ := List.ne_and_not_mem_of_not_mem_cons h
    rw [List.foldl_cons, ih hl, bankGet_bankAfter_other b hic]

/-- Of one command to each of some instances, every one of them takes its own. -/
theorem bankGet_foldl_of_mem {l : List (Inst × Word)} {i : Inst} {cmd : Word} (hmem : (i, cmd) ∈ l)
    (hnodup : (l.map Prod.fst).Nodup) (b : Bank) :
    bankGet (l.foldl bankAfter b) i = afterTick (bankGet b i) cmd := by
  induction l generalizing b with
  | nil => cases hmem
  | cons ic l ih =>
    obtain ⟨hic, hl⟩ := List.nodup_cons.1 hnodup
    rw [List.foldl_cons]
    obtain rfl | htail := List.mem_cons.1 hmem
    · rw [bankGet_foldl_of_not_mem hic, bankGet_bankAfter_same]
    · have hne : i ≠ ic.1 := fun he => hic (he ▸ List.mem_map_of_mem (f := Prod.fst) htail)
      rw [ih htail hl, bankGet_bankAfter_other b hne]

theorem decode_portCommand (q : Port) :
    decode (portCommand q) = if q.connected then .step q.volts else .hold := by
  unfold portCommand
  split <;> exact decode_encode _

/-- Settles O44: a block's tick replaces that block's state alone. -/
theorem instancesShareNoState : Obligations.InstancesShareNoState := by
  refine fun b i cmd => ⟨_, bankTick_eq b i cmd, ?_, fun j hj => bankGet_bankAfter_other b hj⟩
  rw [tick_eq_afterTick, bankGet_bankAfter_same]

/-- Settles O45: commands to two instances commute, so every order of a list with one command each ends alike. -/
theorem instanceOrderIsUnobservable : Obligations.InstanceOrderIsUnobservable := by
  intro b l l' hperm hnodup
  rw [bankTicks_eq, bankTicks_eq, hperm.foldl_eq' (fun x hx y hy z => ?_)]
  obtain rfl | hne := eq_or_ne x y
  · rfl
  · exact bankAfter_comm z fun he => hne (List.inj_on_of_nodup_map hnodup hx hy he)

/-- Settles O46: the sample's list holds one command for each of the six instances. -/
theorem clientSampleStepsEveryInstance : Obligations.ClientSampleStepsEveryInstance := by
  refine ⟨decode_portCommand, fun ports b => ⟨_, bankTicks_eq _ b, fun i => ?_⟩, fun _ _ _ _ _ _ i => ?_⟩
  · have hmem : (i, portCommand (ports i)) ∈ allInsts.map (fun i => (i, portCommand (ports i))) :=
      List.mem_map_of_mem (f := fun i => (i, portCommand (ports i))) (by cases i <;> decide)
    have hnodup : ((allInsts.map (fun i => (i, portCommand (ports i)))).map Prod.fst).Nodup := by
      rw [List.map_map]
      exact (by decide : (allInsts.map id).Nodup)
    rw [tick_eq_afterTick, bankGet_foldl_of_mem hmem hnodup]
  · cases i <;> rfl

end Sys2Proof
end

section
/-! PROOF. The sum, difference, product and quotient of finite values as real numbers rounded once, and the comparisons
as those of real numbers; then the statements about the primitives of 00_scope.md section 4. -/

namespace Sys2Proof

namespace Machine

/-! ### Exact results and their rounding (00_scope.md R9) -/

theorem signedMag_not (s : Bool) (m : Nat) : signedMag (!s) m = -signedMag s m := by
  cases s <;> simp [signedMag]

theorem abs_signedMag (s : Bool) (m : Nat) : |(signedMag s m : ℚ)| = m := by
  cases s <;> simp [signedMag]

theorem abs_fpValue (f : Format) (s : Bool) (m : Nat) : |fpValue f (.fin s m)| = (m : ℚ) / 2 ^ unitShift f := by
  rw [fpValue, abs_div, abs_signedMag, abs_of_pos (by positivity)]

/-- An exact sum of `z` units is the real number `z / 2 ^ unitShift`, rounded under its sign, or the zero asked for. -/
theorem roundSum_rounds (f : Format) (zeroNeg : Bool) {z : Int} {x : ℚ} (hx : x = (z : ℚ) / 2 ^ unitShift f) :
    (x ≠ 0 → roundSum f zeroNeg z = roundReal f (decide (x < 0)) x) ∧
      (x = 0 → roundSum f zeroNeg z = .fin zeroNeg 0) := by
  have hunit : (0 : ℚ) < 2 ^ unitShift f := by positivity
  have hzero : x = 0 ↔ z = 0 := by rw [hx, div_eq_zero_iff, Int.cast_eq_zero, or_iff_left hunit.ne']
  have hneg : x < 0 ↔ z < 0 := by rw [hx, div_lt_iff₀ hunit, zero_mul, Int.cast_lt_zero]
  refine ⟨fun h => ?_, fun h => if_pos (hzero.1 h)⟩
  have habs : |x| * 2 ^ unitShift f = (z.natAbs : ℚ) / (1 : ℕ) := by
    rw [hx, abs_div, abs_of_pos hunit, div_mul_cancel₀ _ hunit.ne', Nat.cast_natAbs, Int.cast_abs,
      Nat.cast_one, div_one]
  rw [roundSum, if_neg (mt hzero.2 h), roundReal_eq Nat.one_pos habs, decide_eq_decide.2 hneg]

theorem fmul_fin (f : Format) (s t : Bool) (a b : Nat) :
    fmul f (.fin s a) (.fin t b) = roundReal f (s ^^ t) (fpValue f (.fin s a) * fpValue f (.fin t b)) := by
  refine (roundReal_eq (Nat.two_pow_pos _) ?_).symm
  rw [abs_mul, abs_fpValue, abs_fpValue]
  push_cast
  field_simp

theorem fdiv_fin (f : Format) (s t : Bool) (a : Nat) {b : Nat} (hb : b ≠ 0) :
    fdiv f (.fin s a) (.fin t b) = roundReal f (s ^^ t) (fpValue f (.fin s a) / fpValue f (.fin t b)) := by
  refine (if_neg hb).trans (roundReal_eq (Nat.pos_of_ne_zero hb) ?_).symm
  have hb' : (b : ℚ) ≠ 0 := Nat.cast_ne_zero.2 hb
  rw [abs_div, abs_fpValue, abs_fpValue]
  push_cast
  field_simp

@[simp] theorem fmul_nan (f : Format) (a : Fp) : fmul f a .nan = .nan := by cases a <;> rfl
@[simp] theorem fdiv_nan (f : Format) (a : Fp) : fdiv f a .nan = .nan := by cases a <;> rfl

/-- The infinities bound every value that is no NaN, strictly but for themselves. -/
theorem inf_bounds {x : Fp} (hx : isNaN x = false) :
    fle (.inf true) x = true ∧ fle x (.inf false) = true ∧
      (flt (.inf true) x = true ↔ x ≠ .inf true) ∧ (flt x (.inf false) = true ↔ x ≠ .inf false) := by
  cases x with
  | nan => cases hx
  | inf s => cases s <;> decide
  | fin s m => simp [fle, flt]

/-- Nothing lies beyond the infinities. -/
theorem nothing_past_inf (x : Fp) :
    flt x (.inf true) = false ∧ flt (.inf false) x = false ∧
      (fle x (.inf true) = true ↔ x = .inf true) ∧ (fle (.inf false) x = true ↔ x = .inf false) := by
  cases x with
  | nan => decide
  | inf s => cases s <;> decide
  | fin s m => simp [fle, flt]

end Machine

open Sys2Proof.Machine

/-- Settles O47: the exact sum is an integer number of units. -/
theorem sumIsCorrectlyRounded : Obligations.SumIsCorrectlyRounded := by
  refine fun f => ⟨fun x => ⟨rfl, fadd_nan f x⟩, fun s => ⟨if_pos rfl, if_neg (by simp)⟩, fun _ _ _ => ⟨rfl, rfl⟩,
    fun s t a b x hx => roundSum_rounds f (s && t) ?_⟩
  rw [hx, fpValue, fpValue, ← add_div, Int.cast_add]

/-- Settles O48: a difference is the sum with the second operand's sign turned. -/
theorem differenceIsCorrectlyRounded : Obligations.DifferenceIsCorrectlyRounded := by
  refine fun f => ⟨fun x => ⟨rfl, fadd_nan f x⟩, fun s => ⟨if_neg (by simp), if_pos (by simp)⟩, fun _ _ _ => ⟨rfl, rfl⟩,
    fun s t a b x hx => roundSum_rounds f (s && !t) ?_⟩
  rw [hx, fpValue, fpValue, ← sub_div, signedMag_not, Int.cast_add, Int.cast_neg, ← sub_eq_add_neg]

/-- Settles O49: `a * b` units of `2 ^ unitShift` parts each. -/
theorem productIsCorrectlyRounded : Obligations.ProductIsCorrectlyRounded := by
  refine fun f => ⟨fun x => ⟨rfl, fmul_nan f x⟩, fun _ _ => rfl, fun _ _ => ⟨rfl, rfl⟩, fun s t b hb => ?_, fmul_fin f⟩
  exact ⟨if_neg hb, by rw [Bool.xor_comm]; exact if_neg hb⟩

/-- Settles O50: the units of the two operands cancel. -/
theorem quotientIsCorrectlyRounded : Obligations.QuotientIsCorrectlyRounded :=
  fun f => ⟨fun x => ⟨rfl, fdiv_nan f x⟩, fun _ _ => rfl, fun _ _ _ => ⟨rfl, rfl⟩, fun _ _ => rfl,
    fun _ _ _ ha => if_neg ha, fun s t a _ hb => fdiv_fin f s t a hb⟩

/-- Settles O51: units of one size compare as the numbers they are, and the infinities stand at the ends. -/
theorem comparisonsFollowValues : Obligations.ComparisonsFollowValues :=
  ⟨fun x => ⟨rfl, flt_nan x, rfl, fle_nan x⟩, fun f s t a b => ⟨flt_fin_iff f s t a b, fle_fin_iff f s t a b⟩,
    fun _ => inf_bounds, nothing_past_inf, fun _ _ => ⟨rfl, rfl⟩⟩

end Sys2Proof
end


section
/-! PROOF. Rounding to the format's grid is to the nearest value and to even in a tie, and where it overflows; then the
statement about rounding. -/

namespace Sys2Proof

namespace Machine

/-! ### The nearest whole number (00_scope.md R9) -/

/-- No whole number is nearer to `n / d` than the rounded one, and where another is as near, the rounded one is even.
Distances are counted in `1 / d`; the cases are which way the quotient was rounded, and where `c` lies beside it. -/
theorem roundHalfEven_nearest (n : Nat) {d : Nat} (hd : 0 < d) (c : Nat) :
    ((roundHalfEven n d : ℤ) * d - n).natAbs ≤ ((c : ℤ) * d - n).natAbs ∧
      (c ≠ roundHalfEven n d → ((roundHalfEven n d : ℤ) * d - n).natAbs = ((c : ℤ) * d - n).natAbs →
        roundHalfEven n d % 2 = 0) := by
  have hmod := Nat.mod_lt n hd
  have hround : roundHalfEven n d = n / d ∧ 2 * (n % d) < d ∨ roundHalfEven n d = n / d + 1 ∧ d < 2 * (n % d) ∨
      (roundHalfEven n d = n / d ∨ roundHalfEven n d = n / d + 1) ∧ 2 * (n % d) = d ∧ roundHalfEven n d % 2 = 0 := by
    unfold roundHalfEven
    split_ifs <;> omega
  have hn : (n : ℤ) = (n / d : ℕ) * d + (n % d : ℕ) := by
    rw [mul_comm]; exact_mod_cast (Nat.div_add_mod n d).symm
  generalize n / d = q at *
  generalize n % d = r at *
  generalize roundHalfEven n d = e at *
  have hdist (e : ℕ) : (e : ℤ) * d - n = ((e : ℤ) - q) * d - r := by rw [hn]; ring
  have hc : c = q ∨ c = q + 1 ∨ ((c : ℤ) - q) * d ≤ -d ∨ 2 * (d : ℤ) ≤ ((c : ℤ) - q) * d := by
    obtain h | h | h | h : (c : ℤ) - q ≤ -1 ∨ c = q ∨ c = q + 1 ∨ 2 ≤ (c : ℤ) - q := by omega
    · exact .inr (.inr (.inl (by nlinarith)))
    · exact .inl h
    · exact .inr (.inl h)
    · exact .inr (.inr (.inr (by nlinarith)))
  rw [hdist, hdist]
  obtain ⟨rfl, hr⟩ | ⟨rfl, hr⟩ | ⟨rfl | rfl, hr, he⟩ := hround <;> obtain rfl | rfl | hc | hc := hc <;>
    simp only [Nat.cast_add, Nat.cast_one, sub_self, add_sub_cancel_left, zero_mul, one_mul] <;> omega

/-! ### The nearest value of the grid -/

/-- No value of the grid lies between neighbours of a binade or beyond. -/
theorem next_le_of_onGrid {f : Format} {m c k : Nat} (hm : onGrid f m) (hc : 2 ^ f.fracBits ≤ c) (h : c * 2 ^ k < m) :
    (c + 1) * 2 ^ k ≤ m := by
  have hbinade : 2 ^ (f.fracBits + k) ≤ m := by
    rw [Nat.pow_add]
    exact (Nat.mul_le_mul_right _ hc).trans h.le
  have hk : k ≤ gridExp f m := by
    have := (Nat.le_log2 (by omega)).2 hbinade
    unfold gridExp
    omega
  obtain ⟨e, rfl⟩ := (Nat.pow_dvd_pow 2 hk).trans (gridExp_dvd hm)
  rw [Nat.mul_comm] at h ⊢
  exact Nat.mul_le_mul_left _ (Nat.lt_of_mul_lt_mul_left h)

/-- Past the first normal binade a magnitude is at or above its binade's start. -/
theorem binade_le {f : Format} {q : Nat} (h : 0 < gridExp f q) : 2 ^ f.fracBits * 2 ^ gridExp f q ≤ q := by
  unfold gridExp at *
  rw [← Nat.pow_add, Nat.add_sub_of_le (by omega)]
  exact Nat.log2_self_le (by rintro rfl; simp at h)

/-- A value of the grid whose own grid is finer than `2 ^ k` lies below that binade's start. -/
theorem lt_binade_of_not_dvd {f : Format} {m k : Nat} (hm : onGrid f m) (h : ¬ 2 ^ k ∣ m) :
    m < 2 ^ f.fracBits * 2 ^ k := by
  by_contra hle
  rw [not_lt, ← Nat.pow_add] at hle
  have hk : k ≤ gridExp f m := by
    have := (Nat.le_log2 (by have := Nat.two_pow_pos (f.fracBits + k); omega)).2 hle
    unfold gridExp
    omega
  exact h ((Nat.pow_dvd_pow 2 hk).trans (gridExp_dvd hm))

/-- The rounded magnitude's own grid is the one it was rounded to, unless it ends the binade. -/
theorem gridExp_roundMag {f : Format} (n : Nat) {d : Nat} (hd : 0 < d) :
    gridExp f (roundMag f n d) = gridExp f (n / d) ∨
      roundMag f n d = 2 ^ (gridExp f (n / d) + f.fracBits + 1) := by
  obtain hlt | heq := (roundMag_le_binade (f := f) (n := n) hd).lt_or_eq
  · left
    refine Nat.le_antisymm ?_ ?_
    · by_cases h0 : roundMag f n d = 0
      · simp [h0, gridExp]
      · have := (Nat.log2_lt h0).2 hlt
        simp only [gridExp] at this ⊢
        omega
    · obtain h0 | hpos := Nat.eq_zero_or_pos (gridExp f (n / d))
      · omega
      · have hle := binade_le_roundMag hd hpos
        have hne : roundMag f n d ≠ 0 := by have := Nat.two_pow_pos (gridExp f (n / d) + f.fracBits); omega
        exact Nat.le_sub_of_add_le ((Nat.le_log2 hne).2 hle)
  · exact .inr heq

/-- An even multiple of the grid's step has an even significand. -/
theorem even_significand {f : Format} (hf : 1 ≤ f.fracBits) (n : Nat) {d : Nat} (hd : 0 < d)
    (h : roundHalfEven n (d * 2 ^ gridExp f (n / d)) % 2 = 0) :
    roundMag f n d / 2 ^ gridExp f (roundMag f n d) % 2 = 0 := by
  obtain e | e := gridExp_roundMag (f := f) n hd
  · rwa [e, roundMag, Nat.mul_div_cancel _ (Nat.two_pow_pos _)]
  · have hgrid : gridExp f (roundMag f n d) = gridExp f (n / d) + 1 := by
      rw [e, gridExp, Nat.log2_two_pow]
      omega
    rw [hgrid, e, Nat.pow_div (by omega) (by decide)]
    exact Nat.mod_eq_zero_of_dvd (dvd_pow_self 2 (by omega))

/-- No value of the grid is nearer to `n / d` than the rounded magnitude, and where another is as near, the rounded one
has an even significand. A value that is no multiple of the step around `n / d` lies below the binade's start, which is
one and is nearer. -/
theorem roundMag_nearest {f : Format} (hf : 1 ≤ f.fracBits) (n : Nat) {d : Nat} (hd : 0 < d) {m : Nat}
    (hm : onGrid f m) :
    ((roundMag f n d : ℤ) * d - n).natAbs ≤ ((m : ℤ) * d - n).natAbs ∧
      (m ≠ roundMag f n d → ((roundMag f n d : ℤ) * d - n).natAbs = ((m : ℤ) * d - n).natAbs →
        roundMag f n d / 2 ^ gridExp f (roundMag f n d) % 2 = 0) := by
  have hscale (c : ℕ) : ((c * 2 ^ gridExp f (n / d) : ℕ) : ℤ) * d = (c : ℤ) * (d * 2 ^ gridExp f (n / d) : ℕ) := by
    push_cast
    ring
  have hround : roundHalfEven n (d * 2 ^ gridExp f (n / d)) * 2 ^ gridExp f (n / d) = roundMag f n d := rfl
  have hnearest (c : ℕ) := roundHalfEven_nearest n (Nat.mul_pos hd (Nat.two_pow_pos (gridExp f (n / d)))) c
  simp only [← hscale, hround] at hnearest
  by_cases hdvd : 2 ^ gridExp f (n / d) ∣ m
  · obtain ⟨c, rfl⟩ := exists_eq_mul_left_of_dvd hdvd
    obtain ⟨hle, htie⟩ := hnearest c
    exact ⟨hle, fun hne heq => even_significand hf n hd (htie (fun hc => hne (by rw [hc, roundMag])) heq)⟩
  · have hpos : 0 < gridExp f (n / d) := by
      rw [Nat.pos_iff_ne_zero]
      intro h0
      simp [h0] at hdvd
    have hstart : ((2 ^ f.fracBits * 2 ^ gridExp f (n / d) : ℕ) : ℤ) * d ≤ n := by
      exact_mod_cast (Nat.le_div_iff_mul_le hd).1 (binade_le hpos)
    have hbelow : (m : ℤ) * d < (2 ^ f.fracBits * 2 ^ gridExp f (n / d) : ℕ) * d := by
      exact_mod_cast Nat.mul_lt_mul_of_pos_right (lt_binade_of_not_dvd hm hdvd) hd
    obtain ⟨hle, -⟩ := hnearest (2 ^ f.fracBits)
    generalize (m : ℤ) * d = M at *
    generalize ((2 ^ f.fracBits * 2 ^ gridExp f (n / d) : ℕ) : ℤ) * d = B at *
    generalize (roundMag f n d : ℤ) * d = R at *
    omega

/-! ### Where rounding overflows -/

/-- The largest finite magnitude of a format. -/
def maxFinite (f : Format) : Nat := (2 ^ (f.fracBits + 1) - 1) * 2 ^ (2 ^ f.expBits - 3)

/-- Half a step past the largest finite magnitude. -/
def overflowBound (f : Format) : Nat := (2 ^ (f.fracBits + 2) - 1) * 2 ^ (2 ^ f.expBits - 4)

theorem maxFinite_onGrid (f : Format) : onGrid f (maxFinite f) :=
  ⟨_, _, Nat.sub_lt (Nat.two_pow_pos _) Nat.one_pos, rfl⟩

theorem two_pow_onGrid (f : Format) (k : Nat) : onGrid f (2 ^ k) :=
  ⟨1, k, Nat.one_lt_two_pow (by omega), (Nat.one_mul _).symm⟩

/-- A significand with its leading bit set stands on the grid of its own exponent. -/
theorem gridExp_mul_two_pow {f : Format} {c : Nat} (k : Nat) (hc : 2 ^ f.fracBits ≤ c)
    (hc' : c < 2 ^ (f.fracBits + 1)) :
    gridExp f (c * 2 ^ k) = k := by
  have hne : c * 2 ^ k ≠ 0 := 
    (Nat.mul_pos ((Nat.two_pow_pos _).trans_le hc) (Nat.two_pow_pos k)).ne'
  have hlog : (c * 2 ^ k).log2 = f.fracBits + k := by
    refine (Nat.log2_eq_iff hne).2 ⟨?_, ?_⟩
    · rw [Nat.pow_add]
      exact Nat.mul_le_mul_right _ hc
    · rw [Nat.add_right_comm, Nat.pow_add]
      exact Nat.mul_lt_mul_of_pos_right hc' (Nat.two_pow_pos k)
  rw [gridExp, hlog, Nat.add_sub_cancel_left]

/-- The first magnitude too large, the largest finite one and one step. -/
theorem maxFinite_add_step {f : Format} (hf : 2 ≤ f.expBits) :
    maxFinite f + 2 ^ (2 ^ f.expBits - 3) = 2 ^ overflowLog f := by
  have h4 : 2 ^ 2 ≤ 2 ^ f.expBits := Nat.pow_le_pow_right (by decide) hf
  have hlog : overflowLog f = f.fracBits + 1 + (2 ^ f.expBits - 3) := by unfold overflowLog; omega
  rw [hlog, Nat.pow_add, maxFinite, ← Nat.succ_mul, Nat.succ_eq_add_one, Nat.sub_add_cancel Nat.one_le_two_pow]

/-- The overflow bound is the middle between the largest finite magnitude and the first one too large. -/
theorem two_mul_overflowBound {f : Format} (hf : 2 ≤ f.expBits) :
    2 * overflowBound f = maxFinite f + 2 ^ overflowLog f := by
  have h4 : 2 ^ 2 ≤ 2 ^ f.expBits := Nat.pow_le_pow_right (by decide) hf
  obtain ⟨K, hK⟩ : ∃ K, 2 ^ f.expBits = K + 4 := ⟨_, (Nat.sub_add_cancel h4).symm⟩
  obtain ⟨a, ha⟩ : ∃ a, 2 ^ f.fracBits = a + 1 := ⟨_, (Nat.sub_add_cancel Nat.one_le_two_pow).symm⟩
  rw [← maxFinite_add_step hf, overflowBound, maxFinite, hK, Nat.pow_add 2 f.fracBits, Nat.pow_succ 2 f.fracBits, ha,
    show (a + 1) * 2 ^ 2 - 1 = 4 * a + 3 by omega, show (a + 1) * 2 - 1 = 2 * a + 1 by omega,
    show K + 4 - 4 = K by omega, show K + 4 - 3 = K + 1 by omega, Nat.pow_succ]
  ring

theorem maxFinite_lt {f : Format} (hf : 2 ≤ f.expBits) : maxFinite f < 2 ^ overflowLog f :=
  maxFinite_add_step hf ▸ Nat.lt_add_of_pos_right (Nat.two_pow_pos _)

/-- The two neighbours of the overflow bound, all three counted in `1 / d`. -/
theorem overflowBound_between {f : Format} (hf : 2 ≤ f.expBits) {d : Nat} (hd : 0 < d) :
    2 * (overflowBound f * d) = maxFinite f * d + 2 ^ overflowLog f * d ∧ maxFinite f * d < 2 ^ overflowLog f * d :=
  ⟨by rw [← Nat.mul_assoc, two_mul_overflowBound hf, Nat.add_mul], Nat.mul_lt_mul_of_pos_right (maxFinite_lt hf) hd⟩

/-- A value of the grid past the largest finite magnitude is at or past the first one too large. -/
theorem overflow_le_of_maxFinite_lt {f : Format} (hf : 2 ≤ f.expBits) {m : Nat} (hm : onGrid f m)
    (h : maxFinite f < m) : 2 ^ overflowLog f ≤ m := by
  have hlead : 2 ^ f.fracBits ≤ 2 ^ (f.fracBits + 1) - 1 := by
    have := Nat.two_pow_pos f.fracBits
    rw [Nat.pow_succ]
    omega
  have hnext := next_le_of_onGrid hm hlead h
  rwa [Nat.succ_mul, ← maxFinite, maxFinite_add_step hf] at hnext

theorem fits_of_le_maxFinite {f : Format} (hf : fitsPort f = true) {m : Nat} (h : m ≤ maxFinite f) :
    m.log2 < overflowLog f := by
  obtain ⟨he, hfrac, -⟩ := (fitsPort_iff f).1 hf
  by_cases h0 : m = 0
  · rw [h0, Nat.log2_zero, overflowLog]
    have := Nat.two_pow_pos f.expBits
    have : 2 ^ 2 ≤ 2 ^ f.expBits := Nat.pow_le_pow_right (by decide) he
    omega
  · exact (Nat.log2_lt h0).2 (h.trans_lt (maxFinite_lt he))

/-- Below the overflow bound the largest finite magnitude is nearer than any too large. -/
theorem roundMag_le_maxFinite {f : Format} (hf : fitsPort f = true) {n d : Nat} (hd : 0 < d)
    (h : n < overflowBound f * d) : roundMag f n d ≤ maxFinite f := by
  obtain ⟨he, hfrac, -⟩ := (fitsPort_iff f).1 hf
  by_contra hlt
  have hover := Nat.mul_le_mul_right d (overflow_le_of_maxFinite_lt he (roundMag_onGrid f hd) (not_le.1 hlt))
  obtain ⟨hmid, hstep⟩ := overflowBound_between he hd
  obtain ⟨hnear, -⟩ := roundMag_nearest hfrac n hd (maxFinite_onGrid f)
  simp only [← Nat.cast_mul] at hnear
  omega

/-- From the overflow bound on the first magnitude too large is nearer than any finite one, or as near, and then the
largest finite one has an odd significand. -/
theorem overflow_le_roundMag {f : Format} (hf : fitsPort f = true) {n d : Nat} (hd : 0 < d)
    (h : overflowBound f * d ≤ n) : 2 ^ overflowLog f ≤ roundMag f n d := by
  obtain ⟨he, hfrac, -⟩ := (fitsPort_iff f).1 hf
  refine overflow_le_of_maxFinite_lt he (roundMag_onGrid f hd) ?_
  by_contra hle
  have hmax := Nat.mul_le_mul_right d (not_lt.1 hle)
  obtain ⟨hmid, hstep⟩ := overflowBound_between he hd
  obtain ⟨hnear, htie⟩ := roundMag_nearest hfrac n hd (two_pow_onGrid f (overflowLog f))
  simp only [← Nat.cast_mul] at hnear htie
  generalize 2 ^ overflowLog f * d = T at *
  have heq : roundMag f n d = maxFinite f := Nat.eq_of_mul_eq_mul_right hd (by omega)
  have heven := htie (heq ▸ (maxFinite_lt he).ne') (by omega)
  have hodd : maxFinite f / 2 ^ gridExp f (maxFinite f) % 2 = 1 := by
    have hpow : 2 ^ f.fracBits * 2 = 2 ^ (f.fracBits + 1) := (Nat.pow_succ ..).symm
    have hpos := Nat.two_pow_pos f.fracBits
    rw [maxFinite, gridExp_mul_two_pow _ (by omega) (by omega), Nat.mul_div_cancel _ (Nat.two_pow_pos _)]
    omega
  rw [heq, hodd] at heven
  exact absurd heven one_ne_zero

/-- The distance of two fractions over one denominator. -/
theorem abs_sub_div (m n : Nat) {d : Nat} (hd : 0 < d) :
    |(m : ℚ) - (n : ℚ) / d| = (((m : ℤ) * d - n).natAbs : ℚ) / d := by
  have hd' : (0 : ℚ) < d := Nat.cast_pos.2 hd
  rw [Nat.cast_natAbs, Int.cast_abs, eq_div_iff hd'.ne', ← abs_of_pos hd', ← abs_mul, abs_of_pos hd', sub_mul,
    div_mul_cancel₀ _ hd'.ne']
  push_cast
  rfl

end Machine

open Sys2Proof.Machine

/-- Settles O8: the rounded magnitude is the grid's nearest, and the overflow bound decides on which side of the largest
finite value it lies. -/
theorem roundingIsNearestEven : Obligations.RoundingIsNearestEven := by
  intro f neg n d hf hd
  refine ⟨fun hn => ?_, fun hn => ?_⟩
  · have hmax := roundMag_le_maxFinite hf hd hn
    refine ⟨roundMag f n d, if_pos (fits_of_le_maxFinite hf hmax), roundMag_onGrid f hd, hmax, fun m' hm' => ?_⟩
    obtain ⟨hle, htie⟩ := roundMag_nearest ((fitsPort_iff f).1 hf).2.1 n hd hm'
    have hd' : (0 : ℚ) < d := Nat.cast_pos.2 hd
    rw [abs_sub_div _ _ hd, abs_sub_div _ _ hd, div_le_div_iff_of_pos_right hd', div_left_inj' hd'.ne', Nat.cast_le,
      Nat.cast_inj]
    exact ⟨hle, htie⟩
  · have hover := overflow_le_roundMag hf hd hn
    have hne : roundMag f n d ≠ 0 := by have := Nat.two_pow_pos (overflowLog f); omega
    exact if_neg (not_lt.2 ((Nat.le_log2 hne).2 hover))

end Sys2Proof
end

section
/-! PROOF. The default rescale keeps order, and its values one step around a threshold decide the test for every
operand; then the statements about the rescale. -/

namespace Sys2Proof

namespace Machine

/-! ### Order and NaN (00_scope.md R9) -/

theorem not_isNaN_of_fle {a b : Fp} (h : fle a b = true) : isNaN a = false ∧ isNaN b = false := by
  cases a <;> cases b <;> simp_all [fle, isNaN]

theorem fle_self {a : Fp} (h : isNaN a = false) : fle a a = true := by
  cases a <;> simp_all [fle, isNaN]

theorem flt_of_flt_of_fle {a b c : Fp} (hab : flt a b = true) (hbc : fle b c = true) : flt a c = true := by
  rw [flt_eq_not_fle (not_isNaN_of_flt hab).1 (not_isNaN_of_fle hbc).2, Bool.not_eq_true']
  exact Bool.eq_false_iff.2 fun hca => by simpa [fle_eq_false_of_flt hab] using fle_trans hbc hca

theorem flt_of_fle_of_flt {a b c : Fp} (hab : fle a b = true) (hbc : flt b c = true) : flt a c = true := by
  rw [flt_eq_not_fle (not_isNaN_of_fle hab).1 (not_isNaN_of_flt hbc).2, Bool.not_eq_true']
  exact Bool.eq_false_iff.2 fun hca => by simpa [fle_eq_false_of_flt hbc] using fle_trans hca hab

/-- A value at or below and at or above a finite nonzero one is that one. -/
theorem eq_fin_of_fle_of_fle {x : Fp} {s : Bool} {m : Nat} (hm : m ≠ 0) (h1 : fle x (.fin s m) = true)
    (h2 : fle (.fin s m) x = true) : x = .fin s m := by
  cases x with
  | nan => cases h1
  | inf t => cases t <;> simp [fle] at h1 h2
  | fin t n =>
    have heq : signedMag t n = signedMag s m := le_antisymm (of_decide_eq_true h1) (of_decide_eq_true h2)
    cases s <;> cases t <;> simp [signedMag] at heq ⊢ <;> omega

theorem fadd_comm (f : Format) (a b : Fp) : fadd f a b = fadd f b a := by
  cases a with
  | nan => exact (fadd_nan f b).symm
  | inf s => cases b with
    | nan => rfl
    | inf t => cases s <;> cases t <;> rfl
    | fin t n => rfl
  | fin s m => cases b with
    | nan => rfl
    | inf t => rfl
    | fin t n => simp only [fadd, Bool.and_comm s, Int.add_comm (signedMag s m)]

/-! ### Neighbours in the format -/

theorem unpack_inFormat {f : Format} (hf : fitsPort f = true) (b : Volts) : (unpack f b).InFormat f := by
  obtain e | ⟨s, e⟩ | ⟨s, m, e, hgrid, hlog⟩ := unpack_cases hf b <;> rw [e]
  · trivial
  · trivial
  · exact ⟨hgrid, hlog⟩

/-- A value of the format above a positive one is at or above the next. -/
theorem next_fle_of_flt {f : Format} {v : Fp} {c k : Nat} (hv : v.InFormat f) (hc : 2 ^ f.fracBits ≤ c)
    (h : flt (.fin false (c * 2 ^ k)) v = true) : fle (.fin false ((c + 1) * 2 ^ k)) v = true := by
  cases v with
  | nan => cases h
  | inf s => exact h
  | fin s m =>
    have hlt : ((c * 2 ^ k : ℕ) : ℤ) < signedMag s m := of_decide_eq_true h
    cases s with
    | false => exact decide_eq_true (Int.ofNat_le.2 (next_le_of_onGrid hv.1 hc (Int.ofNat_lt.1 hlt)))
    | true => exact absurd (hlt.trans_le (by simp [signedMag])) (Int.natCast_nonneg _).not_gt

/-- A value of the format below a positive one is at or below the one before it. -/
theorem fle_prev_of_flt {f : Format} {v : Fp} {c k : Nat} (hv : v.InFormat f) (hc : 2 ^ f.fracBits ≤ c)
    (h : flt v (.fin false ((c + 1) * 2 ^ k)) = true) : fle v (.fin false (c * 2 ^ k)) = true := by
  by_contra hle
  rw [Bool.not_eq_true] at hle
  have hlt : flt (.fin false (c * 2 ^ k)) v = true := by
    rw [flt_eq_not_fle rfl (not_isNaN_of_flt h).1, hle, Bool.not_false]
  have hnext := next_fle_of_flt hv hc hlt
  simp [fle_eq_false_of_flt h] at hnext

/-! ### The default rescale keeps order (40_comparator_ops.md section 1) -/

theorem binary32_fitsPort : fitsPort .binary32 = true := by decide

theorem unpack_vLo_default : unpack .binary32 0x3DCCCCCD#32 = .fin false (0xCCCCCD * 2 ^ 122) := by decide

theorem unpack_span_default : unpack .binary32 0x3FF33333#32 = .fin false (0xF33333 * 2 ^ 126) := by decide

/-- With `Y_LO` = +0.0 and `YSPAN` = 1.0 the rescale is the quotient, with a zero's sign made positive. -/
theorem rescale_default_eq (v : Volts) :
    rescale Params.default v =
      fadd .binary32
        (fdiv .binary32 (fadd .binary32 (unpack .binary32 v) (.fin true (0xCCCCCD * 2 ^ 122)))
          (.fin false (0xF33333 * 2 ^ 126)))
        (.fin false 0) := by
  rw [rescale_default, fmul_one (quotient_default_inFormat _), fadd_comm, fsub, unpack_vLo_default, unpack_span_default]
  rfl

/-- Each of the three operations keeps order. -/
theorem rescale_default_mono {a b : Volts} (h : fle (unpack .binary32 a) (unpack .binary32 b) = true) :
    fle (rescale Params.default a) (rescale Params.default b) = true := by
  rw [rescale_default_eq, rescale_default_eq]
  exact fadd_mono (fdiv_mono binary32_fitsPort (by decide) (fadd_mono h))

theorem rescale_default_nan {v : Volts} (h : isNaN (unpack .binary32 v) = true) : rescale Params.default v = .nan := by
  have hv : unpack Params.default.fmt v = .nan := isNaN_iff.1 h
  rw [rescale, hv, rescaleFp_nan]

theorem isNaN_rescale_default (v : Volts) : isNaN (rescale Params.default v) = isNaN (unpack .binary32 v) := by
  cases h : isNaN (unpack .binary32 v) with
  | true => rw [rescale_default_nan h, isNaN]
  | false => exact (not_isNaN_of_fle (rescale_default_mono (fle_self h))).1

/-! ### The thresholds on the raw voltage (40_comparator_ops.md section 1) -/

/-- Where the rescale tells an operand from the next, being above it can be told before the rescale or after. -/
theorem flt_rescale_right {x x' : Volts} {c k : Nat} (hc : 2 ^ 23 ≤ c)
    (hx : unpack .binary32 x = .fin false (c * 2 ^ k)) (hx' : unpack .binary32 x' = .fin false ((c + 1) * 2 ^ k))
    (hN : flt (rescale Params.default x) (rescale Params.default x') = true) (v : Volts) :
    flt (rescale Params.default x) (rescale Params.default v) = flt (unpack .binary32 x) (unpack .binary32 v) := by
  refine Bool.eq_iff_iff.2 ⟨fun h => ?_, fun h => ?_⟩
  · have hv : isNaN (unpack .binary32 v) = false := isNaN_rescale_default v ▸ (not_isNaN_of_flt h).2
    rw [flt_eq_not_fle (hx ▸ rfl) hv, Bool.not_eq_true']
    exact Bool.eq_false_iff.2 fun hle => by simpa [fle_eq_false_of_flt h] using rescale_default_mono hle
  · rw [hx] at h
    have hle := next_fle_of_flt (unpack_inFormat binary32_fitsPort v) hc h
    exact flt_of_flt_of_fle hN (rescale_default_mono (hx' ▸ hle))

/-- Where the rescale tells an operand from the last one, being below it can be told before the rescale or after. -/
theorem flt_rescale_left {x x' : Volts} {c k : Nat} (hc : 2 ^ 23 ≤ c)
    (hx : unpack .binary32 x = .fin false (c * 2 ^ k)) (hx' : unpack .binary32 x' = .fin false ((c + 1) * 2 ^ k))
    (hN : flt (rescale Params.default x) (rescale Params.default x') = true) (v : Volts) :
    flt (rescale Params.default v) (rescale Params.default x') = flt (unpack .binary32 v) (unpack .binary32 x') := by
  refine Bool.eq_iff_iff.2 ⟨fun h => ?_, fun h => ?_⟩
  · have hv : isNaN (unpack .binary32 v) = false := isNaN_rescale_default v ▸ (not_isNaN_of_flt h).1
    rw [flt_eq_not_fle hv (hx' ▸ rfl), Bool.not_eq_true']
    exact Bool.eq_false_iff.2 fun hle => by simpa [fle_eq_false_of_flt h] using rescale_default_mono hle
  · rw [hx'] at h
    have hle := fle_prev_of_flt (unpack_inFormat binary32_fitsPort v) hc h
    exact flt_of_fle_of_flt (rescale_default_mono (hx ▸ hle)) hN

/-- Values alike in being NaN compare alike by `≤` where they compare alike by `<` the other way round. -/
theorem fle_eq_of_flt_eq {a b a' b' : Fp} (ha : isNaN a = isNaN a') (hb : isNaN b = isNaN b')
    (h : flt b a = flt b' a') : fle a b = fle a' b' := by
  cases haN : isNaN a' with
  | true => rw [isNaN_iff.1 (ha.trans haN), isNaN_iff.1 haN]; rfl
  | false =>
    cases hbN : isNaN b' with
    | true => rw [isNaN_iff.1 (hb.trans hbN), isNaN_iff.1 hbN, fle_nan, fle_nan]
    | false => simpa [flt_eq_not_fle (hb.trans hbN) (ha.trans haN), flt_eq_not_fle hbN haN] using h

/-- 2.0 rescales to 1.0. -/
theorem rescale_two : rescale Params.default 0x40000000#32 = unpack .binary32 0x3F800000#32 := by decide

/-- fl32(0.1) rescales to +0.0. -/
theorem rescale_tenth : rescale Params.default 0x3DCCCCCD#32 = unpack .binary32 0x00000000#32 := by decide

theorem one_flt_rescale (v : Volts) :
    flt (unpack .binary32 0x3F800000#32) (rescale Params.default v) =
      flt (unpack .binary32 0x40000000#32) (unpack .binary32 v) :=
  rescale_two ▸ flt_rescale_right (x' := 0x40000001#32) (c := 2 ^ 23) (k := 127) (by decide) (by decide) (by decide)
    (by decide) v

theorem rescale_flt_one (v : Volts) :
    flt (rescale Params.default v) (unpack .binary32 0x3F800000#32) =
      flt (unpack .binary32 v) (unpack .binary32 0x40000000#32) :=
  rescale_two ▸ flt_rescale_left (x := 0x3FFFFFFF#32) (c := 2 ^ 24 - 1) (k := 126) (by decide) (by decide) (by decide)
    (by decide) v

theorem zero_flt_rescale (v : Volts) :
    flt (unpack .binary32 0x00000000#32) (rescale Params.default v) =
      flt (unpack .binary32 0x3DCCCCCD#32) (unpack .binary32 v) :=
  rescale_tenth ▸ flt_rescale_right (x' := 0x3DCCCCCE#32) (c := 0xCCCCCD) (k := 122) (by decide) (by decide) (by decide)
    (by decide) v

theorem rescale_flt_zero (v : Volts) :
    flt (rescale Params.default v) (unpack .binary32 0x00000000#32) =
      flt (unpack .binary32 v) (unpack .binary32 0x3DCCCCCD#32) :=
  rescale_tenth ▸ flt_rescale_left (x := 0x3DCCCCCC#32) (c := 0xCCCCCC) (k := 122) (by decide) (by decide) (by decide)
    (by decide) v

/-! ### Zeros and subnormals (40_comparator_ops.md section 1, the table of special operands) -/

/-- Every operand between the extreme subnormals rescales as those do. -/
theorem rescale_default_subnormal {v : Volts} (h : v.toNat % 2 ^ 31 ≤ 0x007FFFFF) :
    rescale Params.default v = unpack .binary32 0xBD579436#32 := by
  obtain ⟨s, m, hv, hm⟩ : ∃ s m, unpack .binary32 v = .fin s m ∧ m ≤ 0x7FFFFF := by
    have hexp : expField .binary32 v = 0 := by simp only [expField, Format.binary32]; omega
    have hfrac : fracField .binary32 v ≤ 0x7FFFFF := by simp only [fracField, Format.binary32]; omega
    exact ⟨_, _, unpack_of_subnormal (by rw [hexp]; decide) hexp, hfrac⟩
  have hlo : fle (unpack .binary32 0x807FFFFF#32) (unpack .binary32 v) = true := by
    have hneg : unpack .binary32 0x807FFFFF#32 = .fin true 0x7FFFFF := by decide
    rw [hneg, hv]
    cases s <;> simp [fle, signedMag]
    omega
  have hhi : fle (unpack .binary32 v) (unpack .binary32 0x007FFFFF#32) = true := by
    have hpos : unpack .binary32 0x007FFFFF#32 = .fin false 0x7FFFFF := by decide
    rw [hpos, hv]
    cases s <;> simp [fle, signedMag]
    omega
  have hNlo : rescale Params.default 0x807FFFFF#32 = unpack .binary32 0xBD579436#32 := by decide
  have hNhi : rescale Params.default 0x007FFFFF#32 = unpack .binary32 0xBD579436#32 := by decide
  have hvalue : unpack .binary32 0xBD579436#32 = .fin true (0xD79436 * 2 ^ 121) := by decide
  have h1 := rescale_default_mono hlo
  have h2 := rescale_default_mono hhi
  rw [hNlo, hvalue] at h1
  rw [hNhi, hvalue] at h2
  exact (eq_fin_of_fle_of_fle (by decide) h2 h1).trans hvalue.symm

end Machine

open Sys2Proof.Machine

/-- Settles O11: each operation of the default rescale keeps order. -/
theorem rescaleKeepsOrder : Obligations.RescaleKeepsOrder := fun _ _ => rescale_default_mono

/-- Settles O12: the rescale keeps order and tells each raw threshold from its neighbours. -/
theorem rawVoltageFormOfThresholds : Obligations.RawVoltageFormOfThresholds := fun v =>
  ⟨one_flt_rescale v, rescale_flt_zero v,
    fle_eq_of_flt_eq rfl (isNaN_rescale_default v) (rescale_flt_one v),
    fle_eq_of_flt_eq (isNaN_rescale_default v) rfl (zero_flt_rescale v)⟩

/-- Settles O13: NaNs and subnormals as families, and the four extreme operands. -/
theorem specialOperandsRescale : Obligations.SpecialOperandsRescale := by
  refine ⟨fun v hv => ?_, fun v hv => ?_, by decide, by decide, by decide, by decide⟩
  · rw [rescale_default_nan ((isNaN_unpack_binary32_iff v).2 hv)]
    exact ⟨rfl, aboveHi_nan _, belowLo_nan _⟩
  · rw [rescale_default_subnormal hv]
    decide

end Sys2Proof
end

section
/-! PROOF. The three fields of a binary32 word and its value, both ways; then the statements about packing a value and
about lines of stimulus. -/

namespace Sys2Proof

namespace Machine

/-! ### A binary32 word from its fields (30_encoding.md R46) -/

/-- The word of a sign, an exponent field and a fraction field. -/
def binary32Word (s : Bool) (e c : Nat) : Volts := BitVec.ofNat 32 (signWord .binary32 s + e * 2 ^ 23 + c)

theorem signWord_binary32 (s : Bool) : signWord .binary32 s = if s then 2 ^ 31 else 0 := rfl

theorem toNat_binary32Word (s : Bool) {e c : Nat} (he : e < 2 ^ 8) (hc : c < 2 ^ 23) :
    (binary32Word s e c).toNat = (if s then 2 ^ 31 else 0) + e * 2 ^ 23 + c := by
  rw [binary32Word, BitVec.toNat_ofNat, signWord_binary32, Nat.mod_eq_of_lt]
  cases s <;> simp <;> omega

theorem expField_binary32Word (s : Bool) {e c : Nat} (he : e < 2 ^ 8) (hc : c < 2 ^ 23) :
    expField .binary32 (binary32Word s e c) = e := by
  simp only [expField, Format.binary32, toNat_binary32Word s he hc]
  cases s <;> simp <;> omega

theorem fracField_binary32Word (s : Bool) {e c : Nat} (he : e < 2 ^ 8) (hc : c < 2 ^ 23) :
    fracField .binary32 (binary32Word s e c) = c := by
  simp only [fracField, Format.binary32, toNat_binary32Word s he hc]
  cases s <;> simp <;> omega

theorem signField_binary32Word (s : Bool) {e c : Nat} (he : e < 2 ^ 8) (hc : c < 2 ^ 23) :
    signField .binary32 (binary32Word s e c) = s := by
  simp only [signField, Format.binary32, toNat_binary32Word s he hc]
  cases s <;> simp <;> omega

/-- Every word is the word of its fields. -/
theorem binary32Word_fields (v : Volts) :
    binary32Word (signField .binary32 v) (expField .binary32 v) (fracField .binary32 v) = v := by
  refine BitVec.eq_of_toNat_eq ?_
  have hv := v.isLt
  have he : expField .binary32 v < 2 ^ 8 := Nat.mod_lt _ (by decide)
  have hc : fracField .binary32 v < 2 ^ 23 := Nat.mod_lt _ (by decide)
  have hsign : (if signField .binary32 v then 2 ^ 31 else 0) = v.toNat / 2 ^ 31 * 2 ^ 31 := by
    have hs : signField .binary32 v = decide (v.toNat / 2 ^ 31 % 2 = 1) := rfl
    rw [hs]
    by_cases h : v.toNat / 2 ^ 31 % 2 = 1
    · rw [if_pos (decide_eq_true h)]
      omega
    · rw [if_neg (by simpa using h)]
      omega
  rw [toNat_binary32Word _ he hc, hsign]
  simp only [expField, fracField, Format.binary32]
  omega

/-! ### Packing (30_encoding.md section 3) -/

theorem pack_inf_binary32 (s : Bool) : pack .binary32 (.inf s) = binary32Word s 255 0 := by cases s <;> decide

theorem pack_subnormal_binary32 (s : Bool) {m : Nat} (hm : m < 2 ^ 23) :
    pack .binary32 (.fin s m) = binary32Word s 0 m := by
  have hgrid : gridExp .binary32 m = 0 := by
    by_cases h0 : m = 0
    · simp [h0, gridExp]
    · exact Nat.sub_eq_zero_of_le ((Nat.log2_lt h0).2 hm).le
  rw [pack, hgrid, binary32Word, Nat.pow_zero, Nat.div_one, Nat.zero_mul, Nat.zero_mul]

/-- The leading bit of the significand carries into the exponent field. -/
theorem pack_normal_binary32 (s : Bool) {c : Nat} (k : Nat) (hc : c < 2 ^ 23) :
    pack .binary32 (.fin s ((2 ^ 23 + c) * 2 ^ k)) = binary32Word s (k + 1) c := by
  have hgrid : gridExp .binary32 ((2 ^ 23 + c) * 2 ^ k) = k :=
    gridExp_mul_two_pow (f := .binary32) k (Nat.le_add_right _ _) (show 2 ^ 23 + c < 2 ^ 24 by omega)
  have hfrac : Format.binary32.fracBits = 23 := rfl
  rw [pack, hgrid, binary32Word, hfrac, Nat.mul_div_cancel _ (Nat.two_pow_pos k), Nat.add_mul, Nat.one_mul,
    ← Nat.add_assoc, ← Nat.add_assoc]

/-- A finite value of binary32 is a subnormal, or a normal one with a significand of 24 bits. -/
theorem binary32_fin_cases {m : Nat} (hgrid : onGrid .binary32 m) (hlog : m.log2 < overflowLog .binary32) :
    m < 2 ^ 23 ∨ ∃ c k, c < 2 ^ 23 ∧ k < 254 ∧ m = (2 ^ 23 + c) * 2 ^ k := by
  obtain hm | hm := Nat.lt_or_ge m (2 ^ 23)
  · exact .inl hm
  · right
    have hmax : overflowLog .binary32 = 277 := by decide
    have hlog23 : 23 ≤ m.log2 := (Nat.le_log2 (by omega)).2 hm
    have hk : gridExp .binary32 m + 23 = m.log2 := Nat.sub_add_cancel hlog23
    obtain ⟨e, he⟩ := exists_eq_mul_left_of_dvd (gridExp_dvd hgrid)
    have hlo : 2 ^ 23 ≤ e := by
      refine Nat.le_of_mul_le_mul_right ?_ (Nat.two_pow_pos (gridExp .binary32 m))
      rw [← he, ← Nat.pow_add, Nat.add_comm, hk]
      exact Nat.log2_self_le (by omega)
    have hhi : e < 2 ^ 24 := by
      refine Nat.lt_of_mul_lt_mul_right (a := 2 ^ gridExp .binary32 m) ?_
      rw [← he, ← Nat.pow_add, show 24 + gridExp .binary32 m = m.log2 + 1 by omega]
      exact Nat.lt_log2_self
    exact ⟨e - 2 ^ 23, gridExp .binary32 m, by omega, by omega, by rwa [Nat.add_sub_cancel' hlo]⟩

/-- Unpacking the word of a value of binary32 gives the value back. -/
theorem unpack_pack_binary32 {x : Fp} (hx : x.InFormat .binary32) : unpack .binary32 (pack .binary32 x) = x := by
  cases x with
  | nan => decide
  | inf s => cases s <;> decide
  | fin s m =>
    obtain hm | ⟨c, k, hc, hk, rfl⟩ := binary32_fin_cases hx.1 hx.2
    · have he : expField .binary32 (binary32Word s 0 m) = 0 := expField_binary32Word s (by decide) hm
      rw [pack_subnormal_binary32 s hm, unpack_of_subnormal (by rw [he]; decide) he,
        signField_binary32Word s (by decide) hm, fracField_binary32Word s (by decide) hm]
    · have he : expField .binary32 (binary32Word s (k + 1) c) = k + 1 := expField_binary32Word s (by omega) hc
      have hbits : 2 ^ Format.binary32.expBits - 1 = 255 := rfl
      rw [pack_normal_binary32 s k hc, unpack_of_normal (by omega) (by omega),
        signField_binary32Word s (by omega) hc, fracField_binary32Word s (by omega) hc, he]
      rfl

/-- Packing the value of a word that is no NaN gives the word back: its fields are those the packed word is made of. -/
theorem pack_unpack_binary32 {v : Volts} (h : isNaN (unpack .binary32 v) = false) :
    pack .binary32 (unpack .binary32 v) = v := by
  have hc : fracField .binary32 v < 2 ^ 23 := Nat.mod_lt _ (by decide)
  have hword := binary32Word_fields v
  by_cases hmax : expField .binary32 v = 255
  · have hfrac : fracField .binary32 v = 0 := by
      by_contra hne
      rw [unpack_of_nan hmax hne] at h
      cases h
    rw [unpack_of_infinity hmax hfrac, pack_inf_binary32]
    rwa [hmax, hfrac] at hword
  · by_cases h0 : expField .binary32 v = 0
    · rw [unpack_of_subnormal hmax h0, pack_subnormal_binary32 _ hc]
      rwa [h0] at hword
    · rw [unpack_of_normal hmax h0]
      refine (pack_normal_binary32 _ _ hc).trans ?_
      rwa [Nat.sub_add_cancel (Nat.pos_of_ne_zero h0)]

/-! ### Lines of stimulus (30_encoding.md R51, R52) -/

/-- A decimal literal's bits are those of its value correctly rounded. -/
theorem literalBits_decimal (f : Format) (neg : Bool) (digits scale : Nat) :
    literalBits f (.decimal neg digits scale) = pack f (roundReal f neg ((digits : ℚ) / 10 ^ scale)) := by
  have hpos : 0 < 10 ^ scale := Nat.pow_pos (by decide)
  rw [literalBits, fl32, roundReal_eq (n := digits * 2 ^ unitShift f) hpos]
  rw [abs_of_nonneg (by positivity)]
  push_cast
  ring

theorem roundReal_inFormat (f : Format) (neg : Bool) (x : ℚ) : (roundReal f neg x).InFormat f :=
  roundTo_inFormat f neg _ x.den_pos

end Machine

open Sys2Proof.Machine

/-- Settles O9: the fields of a word that is no NaN determine its value, and the value its fields. -/
theorem packOfUnpackIsIdentity : Obligations.PackOfUnpackIsIdentity := fun _ => pack_unpack_binary32

/-- Settles O6: a line's word is its command's canonical word, and a rounded literal is a value that its word stands
for. -/
theorem stimulusLinesAssemble : Obligations.StimulusLinesAssemble := by
  refine ⟨fun f => ⟨Laws.CanonicalWord.reset, Laws.CanonicalWord.hold, Laws.CanonicalWord.hold, fun _ => rfl,
    Laws.CanonicalWord.step, fun v => Laws.CanonicalWord.step (literalBits f v), literalBits_decimal f⟩,
    fun neg digits scale => ?_, by decide, by decide, by decide, by decide, by decide, by decide⟩
  rw [literalBits_decimal, unpack_pack_binary32 (roundReal_inFormat .binary32 neg _)]

end Sys2Proof
end
